-- ==== Sys2Proof/Word.lean ====
section
/-! DEFINITION. The word types of the block: command word and RESULT, wire byte, pixel element, buffer index. -/

namespace Sys2Proof

/-- A command word, and RESULT (00_scope.md R10: both are 32 bits). -/
abbrev Word := BitVec 32

/-- A colour channel, and one byte of the wire (00_scope.md R10, 10_state.md R34). -/
abbrev Byte := BitVec 8

/-- One buffer element, wide enough for both formats (20_memory.md R53). In an RGB565 block an element
uses its low 16 bits and its two high bits are 0; `Machine.State.Inv` says so. -/
abbrev Pixel := BitVec 18

/-- A buffer index, 1 bit (00_scope.md R10). -/
abbrev BufIdx := BitVec 1

end Sys2Proof
end

