-- ==== Sys2Proof/Config.lean ====
section
/-! DEFINITION. What an implementation fixes (the parameters of 00_scope.md R9), what the environment may do
(the moves of the three agents, R7), and the free values. -/

namespace Sys2Proof

/-- `PIXEL_FORMAT` (00_scope.md R9). -/
inductive PixelFormat where
  | rgb565
  | rgb666
  deriving DecidableEq, Repr

/-- `NBUF`, one or two buffers (00_scope.md R9). -/
inductive BufCount where
  | one
  | two
  deriving DecidableEq, Repr

/-- NBUF as a number. -/
def BufCount.count : BufCount → Nat
  | .one => 1
  | .two => 2

/-- The parameters of 00_scope.md R9. The model takes them as data, so a statement about every state is a
statement about every parameter choice (log 1). -/
structure Params where
  /-- `W` -/
  width : Nat
  /-- `H` -/
  height : Nat
  /-- `NBUF` -/
  nbuf : BufCount
  /-- `PIXEL_FORMAT` -/
  format : PixelFormat
  /-- `SENTINEL_PIXEL`, a value of PIXEL_BITS bits -/
  sentinel : Pixel
  deriving DecidableEq, Repr

/-- `CAP` = W * H (00_scope.md R9). -/
def Params.cap (p : Params) : Nat := p.width * p.height

/-- `PIXEL_BITS`: 16 if RGB565, 18 if RGB666 (00_scope.md R9). -/
def Params.pixelBits (p : Params) : Nat :=
  match p.format with
  | .rgb565 => 16
  | .rgb666 => 18

/-- `WIRE_BYTES`: 2 if RGB565, 3 if RGB666 (00_scope.md R9). -/
def Params.wireBytes (p : Params) : Nat :=
  match p.format with
  | .rgb565 => 2
  | .rgb666 => 3

/-- One move of one agent (00_scope.md R7, R8): what the environment does next. Plain data, so a list of
moves says how the agents interleave. A move that is not enabled is no step (log 7). -/
inductive Move where
  /-- The HOST issues this word, which becomes PENDING and is evaluated, with the input xport_ready at this level
  (10_state.md R24, R35; log 6). -/
  | host (w : Word) (xportReady : Bool)
  /-- TRANSPORT event EMIT (42_transfer.md R160). -/
  | emit
  /-- TRANSPORT event DONE (42_transfer.md R161). -/
  | done
  /-- TRANSPORT event XERR (42_transfer.md R162). -/
  | xerr
  /-- The RESET step (70_reset_and_hazards.md R200). -/
  | reset
  deriving DecidableEq, Repr, Inhabited

namespace Config

/-- FREE VALUE: the SENTINEL_PIXEL of `State.reset`'s RGB565 block. No source gives it (70_reset_and_hazards.md
R202, 92_eei_decisions.md D10), so it has no body (log 3). -/
opaque sentinel565 : BitVec 16

/-- FREE VALUE: the move taken when `State.schedule` is empty, drawn at each value of the counter
`State.drawn`. Which agent steps, and the level of xport_ready, are any value (93_implementation_defined.md
I13, I14), so it has no body (log 4). -/
opaque freeMove : Nat → Move

/-- The parameters of `State.reset`: the reference geometry and format of 00_scope.md R9; NBUF = 2 is a
DESIGN CHOICE (log 2); the sentinel is free (log 3). -/
def reference : Params where
  width := 240
  height := 240
  nbuf := .two
  format := .rgb565
  sentinel := sentinel565.setWidth 18

end Config

end Sys2Proof
end

