-- ==== Sys2Proof/Syntax.lean ====
section
/-! DEFINITION. The 13 commands of 30_encoding.md R80, one constructor per row of spec/opcode_table.json. -/

namespace Sys2Proof

/-- A command. Every operand has the width of its field (30_encoding.md R79), so no field of a term can hold a
value its word could not. -/
inductive Instr where
  /-- NOP (43_control.md R170) -/
  | nop
  /-- PACK565 r, g, b (40_codec.md R101) -/
  | pack565 (r g b : Byte)
  /-- PACK666 r, g, b (40_codec.md R104) -/
  | pack666 (r g b : Byte)
  /-- SPLIT565 p (40_codec.md R107) -/
  | split565 (p : BitVec 16)
  /-- SPLIT666 p (40_codec.md R110) -/
  | split666 (p : BitVec 18)
  /-- FBWR bk, o (41_framebuffer.md R125) -/
  | fbwr (k : BufIdx) (o : BitVec 16)
  /-- FBRD bk, o (41_framebuffer.md R126) -/
  | fbrd (k : BufIdx) (o : BitVec 16)
  /-- FBWRXY bk, x, y (41_framebuffer.md R128) -/
  | fbwrxy (k : BufIdx) (x y : BitVec 8)
  /-- FBRDXY bk, x, y (41_framebuffer.md R129) -/
  | fbrdxy (k : BufIdx) (x y : BitVec 8)
  /-- SUBMIT bk (42_transfer.md R145) -/
  | submit (k : BufIdx)
  /-- WAIT bk (42_transfer.md R155) -/
  | wait (k : BufIdx)
  /-- STATUS (43_control.md R172) -/
  | status
  /-- ERRCLR (43_control.md R174) -/
  | errclr
  deriving DecidableEq, Repr

end Sys2Proof
end

