-- ==== Sys2Proof/WellFormed.lean ====
section
/-! DEFINITION. What is well formed: the parameters (00_scope.md R9) and a line of assembly (30_encoding.md R87,
R88). A term of `Instr` needs no check of its own, because its operands have the widths of their fields. -/

namespace Sys2Proof

/-- `SENTINEL_PIXEL` and every stored element are PIXEL_BITS-bit values (00_scope.md R9, 20_memory.md R53). -/
def Params.fits (p : Params) (v : Pixel) : Bool := decide (v.toNat < 2 ^ p.pixelBits)

/-- The ranges of 00_scope.md R9: 1 <= W <= 256, 1 <= H <= 256, and a sentinel of PIXEL_BITS bits. -/
def Params.wf (p : Params) : Bool :=
  decide (1 ≤ p.width) && decide (p.width ≤ 256) &&
  decide (1 ≤ p.height) && decide (p.height ≤ 256) && p.fits p.sentinel

/-- A line of assembly, with its numbers as written (30_encoding.md R87, R88): a buffer bk is the number k. -/
inductive Line where
  | nop
  | pack565 (r g b : Nat)
  | pack666 (r g b : Nat)
  | split565 (p : Nat)
  | split666 (p : Nat)
  | fbwr (k o : Nat)
  | fbrd (k o : Nat)
  | fbwrxy (k x y : Nat)
  | fbrdxy (k x y : Nat)
  | submit (k : Nat)
  | wait (k : Nat)
  | status
  | errclr
  /-- pseudo-instruction PACK r, g, b -/
  | pack (r g b : Nat)
  /-- pseudo-instruction PUT bk, x, y, r, g, b -/
  | put (k x y r g b : Nat)
  /-- pseudo-instruction PUTO bk, o, r, g, b -/
  | puto (k o r g b : Nat)
  /-- pseudo-instruction XFER bk -/
  | xfer (k : Nat)
  /-- pseudo-instruction RECLAIM bk -/
  | reclaim (k : Nat)
  deriving DecidableEq, Repr

/-- "a buffer other than b0 or b1" does not fit (30_encoding.md R87). -/
def fitsBuffer (k : Nat) : Bool := decide (k ≤ 1)

/-- "r, g, b, x, y above 255" do not fit (30_encoding.md R87). -/
def fitsByte (v : Nat) : Bool := decide (v ≤ 255)

/-- "o above 65535" does not fit (30_encoding.md R87). -/
def fitsOffset (o : Nat) : Bool := decide (o ≤ 65535)

/-- The operand ranges an assembler accepts (30_encoding.md R87), for commands and pseudo-instructions. -/
def Line.wellFormed : Line → Bool
  | .nop => true
  | .pack565 r g b => fitsByte r && fitsByte g && fitsByte b
  | .pack666 r g b => fitsByte r && fitsByte g && fitsByte b
  | .split565 p => decide (p ≤ 0xFFFF)
  | .split666 p => decide (p ≤ 0x3FFFF)
  | .fbwr k o => fitsBuffer k && fitsOffset o
  | .fbrd k o => fitsBuffer k && fitsOffset o
  | .fbwrxy k x y => fitsBuffer k && fitsByte x && fitsByte y
  | .fbrdxy k x y => fitsBuffer k && fitsByte x && fitsByte y
  | .submit k => fitsBuffer k
  | .wait k => fitsBuffer k
  | .status => true
  | .errclr => true
  | .pack r g b => fitsByte r && fitsByte g && fitsByte b
  | .put k x y r g b =>
      fitsBuffer k && fitsByte x && fitsByte y && fitsByte r && fitsByte g && fitsByte b
  | .puto k o r g b => fitsBuffer k && fitsOffset o && fitsByte r && fitsByte g && fitsByte b
  | .xfer k => fitsBuffer k
  | .reclaim k => fitsBuffer k

end Sys2Proof
end

