-- ==== Sys2Proof/Decode.lean ====
section
/-! DEFINITION. The decoder of 30_encoding.md R85, total on every word, rejecting by name; then the encoder, from
the format tables R72 to R78; then the assembler of R87 and R88. -/

namespace Sys2Proof

/-- The formats of 30_encoding.md R72 to R78. -/
inductive Format where
  | P | S16 | S18 | M | X | T | N
  deriving DecidableEq, Repr

/-- What a word is (30_encoding.md R85): one of the 13 commands, a reserved opcode, or a command whose reserved
field is not zero. -/
inductive Decoded where
  | command (i : Instr)
  /-- opcode 0xD, 0xE or 0xF (R81) -/
  | reserved
  /-- a 1 in the reserved field of the word's format (R82) -/
  | illegal
  deriving DecidableEq, Repr

/-- `op = w[31:28]` (30_encoding.md R71). -/
def opField (w : Word) : BitVec 4 := w.extractLsb' 28 4

/-- The reserved field of each format, as a number (30_encoding.md R85). -/
def reservedBits (f : Format) (w : Word) : Nat :=
  match f with
  | .N => (w.extractLsb' 0 28).toNat
  | .P => (w.extractLsb' 24 4).toNat
  | .S16 => (w.extractLsb' 16 12).toNat
  | .S18 => (w.extractLsb' 18 10).toNat
  | .M => (w.extractLsb' 16 11).toNat
  | .X => (w.extractLsb' 16 11).toNat
  | .T => (w.extractLsb' 0 27).toNat

/-- The operand fields of 30_encoding.md R79: r, g, b. -/
def fieldR (w : Word) : Byte := w.extractLsb' 16 8
def fieldG (w : Word) : Byte := w.extractLsb' 8 8
def fieldB (w : Word) : Byte := w.extractLsb' 0 8
/-- p of S16 and of S18 (R79). -/
def fieldP16 (w : Word) : BitVec 16 := w.extractLsb' 0 16
def fieldP18 (w : Word) : BitVec 18 := w.extractLsb' 0 18
/-- k of M, X and T; o of M; y and x of X (R79). -/
def fieldK (w : Word) : BufIdx := w.extractLsb' 27 1
def fieldO (w : Word) : BitVec 16 := w.extractLsb' 0 16
def fieldY (w : Word) : BitVec 8 := w.extractLsb' 8 8
def fieldX (w : Word) : BitVec 8 := w.extractLsb' 0 8

/-- The check of 30_encoding.md R82: a nonzero reserved field makes the word Illegal. -/
def checkReserved (f : Format) (w : Word) (i : Instr) : Decoded :=
  if reservedBits f w = 0 then .command i else .illegal

/-- The decoder (30_encoding.md R80, R85). -/
def decode (w : Word) : Decoded :=
  match (opField w).toNat with
  | 0x0 => checkReserved .N w .nop
  | 0x1 => checkReserved .P w (.pack565 (fieldR w) (fieldG w) (fieldB w))
  | 0x2 => checkReserved .P w (.pack666 (fieldR w) (fieldG w) (fieldB w))
  | 0x3 => checkReserved .S16 w (.split565 (fieldP16 w))
  | 0x4 => checkReserved .S18 w (.split666 (fieldP18 w))
  | 0x5 => checkReserved .M w (.fbwr (fieldK w) (fieldO w))
  | 0x6 => checkReserved .M w (.fbrd (fieldK w) (fieldO w))
  | 0x7 => checkReserved .X w (.fbwrxy (fieldK w) (fieldX w) (fieldY w))
  | 0x8 => checkReserved .X w (.fbrdxy (fieldK w) (fieldX w) (fieldY w))
  | 0x9 => checkReserved .T w (.submit (fieldK w))
  | 0xA => checkReserved .T w (.wait (fieldK w))
  | 0xB => checkReserved .N w .status
  | 0xC => checkReserved .N w .errclr
  | _ => .reserved

/-- The opcode of each command (30_encoding.md R80). -/
def opcodeOf : Instr → BitVec 4
  | .nop => 0x0
  | .pack565 _ _ _ => 0x1
  | .pack666 _ _ _ => 0x2
  | .split565 _ => 0x3
  | .split666 _ => 0x4
  | .fbwr _ _ => 0x5
  | .fbrd _ _ => 0x6
  | .fbwrxy _ _ _ => 0x7
  | .fbrdxy _ _ _ => 0x8
  | .submit _ => 0x9
  | .wait _ => 0xA
  | .status => 0xB
  | .errclr => 0xC

/-- The format of each command (30_encoding.md R80). -/
def formatOf : Instr → Format
  | .nop => .N
  | .pack565 _ _ _ => .P
  | .pack666 _ _ _ => .P
  | .split565 _ => .S16
  | .split666 _ => .S18
  | .fbwr _ _ => .M
  | .fbrd _ _ => .M
  | .fbwrxy _ _ _ => .X
  | .fbrdxy _ _ _ => .X
  | .submit _ => .T
  | .wait _ => .T
  | .status => .N
  | .errclr => .N

/-- Format P (30_encoding.md R72). -/
def wordP (op : BitVec 4) (r g b : Byte) : Word := op ++ 0#4 ++ r ++ g ++ b

/-- Format S16 (30_encoding.md R73). -/
def wordS16 (op : BitVec 4) (p : BitVec 16) : Word := op ++ 0#12 ++ p

/-- Format S18 (30_encoding.md R74). -/
def wordS18 (op : BitVec 4) (p : BitVec 18) : Word := op ++ 0#10 ++ p

/-- Format M (30_encoding.md R75). -/
def wordM (op : BitVec 4) (k : BufIdx) (o : BitVec 16) : Word := op ++ k ++ 0#11 ++ o

/-- Format X (30_encoding.md R76): y in [15:8], x in [7:0]. -/
def wordX (op : BitVec 4) (k : BufIdx) (x y : BitVec 8) : Word := op ++ k ++ 0#11 ++ y ++ x

/-- Format T (30_encoding.md R77). -/
def wordT (op : BitVec 4) (k : BufIdx) : Word := op ++ k ++ 0#27

/-- Format N (30_encoding.md R78). -/
def wordN (op : BitVec 4) : Word := op ++ 0#28

/-- The word of a command (30_encoding.md R72 to R80). -/
def encode (i : Instr) : Word :=
  match i with
  | .nop => wordN 0x0
  | .pack565 r g b => wordP 0x1 r g b
  | .pack666 r g b => wordP 0x2 r g b
  | .split565 p => wordS16 0x3 p
  | .split666 p => wordS18 0x4 p
  | .fbwr k o => wordM 0x5 k o
  | .fbrd k o => wordM 0x6 k o
  | .fbwrxy k x y => wordX 0x7 k x y
  | .fbrdxy k x y => wordX 0x8 k x y
  | .submit k => wordT 0x9 k
  | .wait k => wordT 0xA k
  | .status => wordN 0xB
  | .errclr => wordN 0xC

/-- The command a decoded word stands for, if any. -/
def Decoded.instr? : Decoded → Option Instr
  | .command i => some i
  | .reserved => none
  | .illegal => none

/-- The command read from an instruction of `nbits` bits numbered as spec/opcode_table.json numbers them: the
command port takes one 32-bit word (30_encoding.md R70), and every bit from `nbits` up is 0. -/
def decodeTableWord (nbits w : Nat) : Option Instr :=
  (decode (BitVec.ofNat 32 (w % 2 ^ nbits))).instr?

/-- PACK in the configured format (30_encoding.md R88). -/
def packFor (f : PixelFormat) (r g b : Nat) : Instr :=
  match f with
  | .rgb565 => .pack565 (BitVec.ofNat 8 r) (BitVec.ofNat 8 g) (BitVec.ofNat 8 b)
  | .rgb666 => .pack666 (BitVec.ofNat 8 r) (BitVec.ofNat 8 g) (BitVec.ofNat 8 b)

/-- The commands a line stands for in a block of format `f` (30_encoding.md R87, R88). -/
def Line.expand (f : PixelFormat) : Line → List Instr
  | .nop => [.nop]
  | .pack565 r g b => [.pack565 (BitVec.ofNat 8 r) (BitVec.ofNat 8 g) (BitVec.ofNat 8 b)]
  | .pack666 r g b => [.pack666 (BitVec.ofNat 8 r) (BitVec.ofNat 8 g) (BitVec.ofNat 8 b)]
  | .split565 p => [.split565 (BitVec.ofNat 16 p)]
  | .split666 p => [.split666 (BitVec.ofNat 18 p)]
  | .fbwr k o => [.fbwr (BitVec.ofNat 1 k) (BitVec.ofNat 16 o)]
  | .fbrd k o => [.fbrd (BitVec.ofNat 1 k) (BitVec.ofNat 16 o)]
  | .fbwrxy k x y => [.fbwrxy (BitVec.ofNat 1 k) (BitVec.ofNat 8 x) (BitVec.ofNat 8 y)]
  | .fbrdxy k x y => [.fbrdxy (BitVec.ofNat 1 k) (BitVec.ofNat 8 x) (BitVec.ofNat 8 y)]
  | .submit k => [.submit (BitVec.ofNat 1 k)]
  | .wait k => [.wait (BitVec.ofNat 1 k)]
  | .status => [.status]
  | .errclr => [.errclr]
  | .pack r g b => [packFor f r g b]
  | .put k x y r g b =>
      [packFor f r g b, .fbwrxy (BitVec.ofNat 1 k) (BitVec.ofNat 8 x) (BitVec.ofNat 8 y)]
  | .puto k o r g b => [packFor f r g b, .fbwr (BitVec.ofNat 1 k) (BitVec.ofNat 16 o)]
  | .xfer k => [.submit (BitVec.ofNat 1 k), .wait (BitVec.ofNat 1 k)]
  | .reclaim k => [.wait (BitVec.ofNat 1 k)]

/-- The assembler: the words of a line, or nothing where an operand does not fit its field (30_encoding.md R87). -/
def assemble (f : PixelFormat) (l : Line) : Option (List Word) :=
  match l.wellFormed with
  | true => some ((l.expand f).map encode)
  | false => none

end Sys2Proof
end

