-- ==== Sys2Proof/Machine/State.lean ====
section
/-! DEFINITION. The state of the block (10_state.md), as plain data, and the state at power-up (70_reset_and_hazards.md
R200, R201). -/

namespace Sys2Proof.Machine

/-- Who owns a buffer (00_scope.md R13, 10_state.md R29). -/
inductive Owner where
  | producer
  | engine
  deriving DecidableEq, Repr

/-- The TransferEngine's state (00_scope.md R13, 10_state.md R26). -/
inductive EngState where
  | idle
  | submitted
  | completing
  | fault
  deriving DecidableEq, Repr

/-- Why the engine is in FAULT (00_scope.md R13, 10_state.md R28). -/
inductive FaultCause where
  | none
  | transfer
  | config
  deriving DecidableEq, Repr

/-- What kind of value RESULT holds (00_scope.md R13, 10_state.md R21). -/
inductive Kind where
  | none
  | pix565
  | pix666
  | wire
  | handle
  | status
  deriving DecidableEq, Repr

/-- The values ERRCODE can hold (60_exceptions.md R180; codes 9 to 15 are never produced, log 11). -/
inductive ErrCode where
  | none
  | illegal
  | bufidx
  | bounds
  | ownership
  | kind
  | busy
  | noxfer
  | faulted
  deriving DecidableEq, Repr

/-- The contents of one frame buffer: the elements that differ from SENTINEL_PIXEL, as (offset, pixel) pairs
(20_memory.md R50; log 8). An offset that is not listed reads as SENTINEL_PIXEL, its value after RESET (R200). -/
abbrev Memory := List (Nat × Pixel)

/-- The canonical form of a buffer's contents over the sentinel `d`: offsets strictly rising, and no entry equal
to what an unlisted offset reads as. -/
def Memory.wf (d : Pixel) : Memory → Bool
  | [] => true
  | [(_, v)] => decide (v ≠ d)
  | (a, v) :: (b, w) :: m => decide (v ≠ d) && decide (a < b) && Memory.wf d ((b, w) :: m)

/-- The state of the block: 10_state.md section 1, then the parameters it runs under, then the model's own fields
(the environment's moves). -/
structure State where
  /-- `RESULT` (R20) -/
  result : Word
  /-- `RESULT_KIND` (R21) -/
  resultKind : Kind
  /-- `ERRCODE` (R25) -/
  errcode : ErrCode
  /-- `ENG_STATE` (R26) -/
  engState : EngState
  /-- `CUR_BUF` (R27) -/
  curBuf : BufIdx
  /-- `FAULT_CAUSE` (R28) -/
  faultCause : FaultCause
  /-- `OWN[0]` (R29) -/
  own0 : Owner
  /-- `OWN[1]` (R29); inert when NBUF = 1 (log 9) -/
  own1 : Owner
  /-- `XFER_PTR` (R33) -/
  xferPtr : Nat
  /-- `FB[0]` (R32) -/
  fb0 : Memory
  /-- `FB[1]` (R32); inert when NBUF = 1 (log 9) -/
  fb1 : Memory
  /-- `PENDING` (R24) -/
  pending : Option Word
  /-- `WIRE` (R34), oldest byte first -/
  wire : List Byte
  /-- the parameters of 00_scope.md R9: no step changes them (log 1) -/
  params : Params
  /-- model's own: the level of the input xport_ready at the HOST step being taken (R35; log 5) -/
  xportReady : Bool
  /-- model's own: the moves the agents make next, in order (00_scope.md R8; log 4) -/
  schedule : List Move
  /-- model's own: how many moves were drawn from `Config.freeMove` (log 4) -/
  drawn : Nat
  deriving DecidableEq, Repr

/-- The power-up state of a block with parameters `p` (70_reset_and_hazards.md R200, R201): every register at its
reset value, every element SENTINEL_PIXEL (nothing listed), WIRE empty. -/
def State.powerUp (p : Params) : State where
  result := 0
  resultKind := .none
  errcode := .none
  engState := .idle
  curBuf := 0
  faultCause := .none
  own0 := .producer
  own1 := .producer
  xferPtr := 0
  fb0 := []
  fb1 := []
  pending := none
  wire := []
  params := p
  xportReady := false
  schedule := []
  drawn := 0

/-- The machine right after reset, with the parameters of `Config.reference` (logs 2, 3). -/
def State.reset : State := State.powerUp Config.reference

/-- Why the machine stops. -/
inductive Fault where
  /-- SAFE. Raised by EMIT when it would call the transport port XRead outside its domain (20_memory.md R56: the
  engine does not own the buffer it submitted). Only states that break the ownership invariant R30, which no run
  reaches, raise it (log 10). -/
  | transportPortUndefined
  deriving DecidableEq, Repr

/-- Why an instruction has no meaning. -/
inductive Refusal where
  /-- SAFE. Raised only by an arm of `exec` whose instruction has no meaning yet; no arm is left so. -/
  | notModelled (mnemonic : String)
  deriving DecidableEq, Repr

/-- What one step answers. -/
abbrev Answer := Host.Outcome State Fault Refusal

end Sys2Proof.Machine
end

