-- ==== Sys2Proof/Machine/Ops.lean ====
section
/-! DEFINITION. The named operations: reading and writing buffers through the arbiter's ports, writing RESULT,
retiring, rejecting and holding a command, entering FAULT, and the RESET step. -/

namespace Sys2Proof.Machine

/-! ### One buffer's contents -/

/-- The element at offset `o`; an unlisted offset reads as the sentinel `d` (70_reset_and_hazards.md R202). -/
def Memory.read (d : Pixel) : Memory → Nat → Pixel
  | [], _ => d
  | (a, v) :: m, o => if o = a then v else Memory.read d m o

/-- Put `v` at offset `o`, keeping the canonical form `Memory.wf`. -/
def Memory.write (d : Pixel) : Memory → Nat → Pixel → Memory
  | [], o, v => if v = d then [] else [(o, v)]
  | (a, w) :: m, o, v =>
    if o < a then (if v = d then (a, w) :: m else (o, v) :: (a, w) :: m)
    else if o = a then (if v = d then m else (o, v) :: m)
    else (a, w) :: Memory.write d m o v

/-! ### The two buffers and their owners -/

/-- `OWN[k]` (10_state.md R29). -/
def State.own (s : State) (k : BufIdx) : Owner := if k = 1 then s.own1 else s.own0

/-- `OWN[k] <- v`. -/
def State.setOwn (s : State) (k : BufIdx) (v : Owner) : State :=
  if k = 1 then { s with own1 := v } else { s with own0 := v }

/-- The contents of buffer `k` (10_state.md R32). -/
def State.fb (s : State) (k : BufIdx) : Memory := if k = 1 then s.fb1 else s.fb0

/-- Replace the contents of buffer `k`. -/
def State.setFb (s : State) (k : BufIdx) (m : Memory) : State :=
  if k = 1 then { s with fb1 := m } else { s with fb0 := m }

/-- `FB[k][o]` (00_scope.md R12): the model's read of one element. -/
def State.pixelAt (s : State) (k : BufIdx) (o : Nat) : Pixel :=
  (s.fb k).read s.params.sentinel o

/-! ### The arbiter's ports -/

/-- `FBRead(b, o)`, the producer port (20_memory.md R55). The commands check its domain before they call it. -/
def fbRead (k : BufIdx) (o : Nat) (s : State) : Pixel := s.pixelAt k o

/-- `FBWrite(b, o, v)`, the producer port (20_memory.md R55). The commands check its domain before they call it. -/
def fbWrite (k : BufIdx) (o : Nat) (v : Pixel) (s : State) : State :=
  s.setFb k ((s.fb k).write s.params.sentinel o v)

/-- `XRead(o)`, the transport port (20_memory.md R56): defined only in SUBMITTED, on an engine-owned buffer, at an
offset below CAP. -/
def xRead (o : Nat) (s : State) : Option Pixel :=
  if s.engState = .submitted ∧ s.own s.curBuf = .engine ∧ o < s.params.cap then
    some (s.pixelAt s.curBuf o)
  else none

/-! ### RESULT, and how a command ends -/

/-- What the HOST sees when it reads RESULT, at any time and without side effect (10_state.md R20). -/
def hostReadResult (s : State) : Word := s.result

/-- `RESULT <- v; RESULT_KIND <- kd`: the two are written in one step (10_state.md R21). -/
def writeResult (v : Word) (kd : Kind) (s : State) : State :=
  { s with result := v, resultKind := kd }

/-- The command in PENDING retires and PENDING becomes empty (10_state.md R24). -/
def retire (s : State) : State := { s with pending := none }

/-- A command retires with its effect: the state `s` that the effect gives, and PENDING empty. -/
def finish (s : State) : Answer := .next (retire s)

/-- `reject(code)`, the one shared operation that every rejection takes (60_exceptions.md R181): ERRCODE <- code,
the command retires, and nothing else changes. -/
def reject (c : ErrCode) (s : State) : Answer := .next (retire { s with errcode := c })

/-- `hold` (42_transfer.md R151): the command stays in PENDING and nothing changes. It is evaluated again after any
other agent's step (00_scope.md R12). -/
def hold (s : State) : Answer := .next s

/-- A list of checks ended: `some c` rejects with `c` and leaves the state before the checks, `none` lets the
command have its effect (60_exceptions.md R186). -/
def unlessRejected (c : Option ErrCode) (effect : State → Answer) (s : State) : Answer :=
  match c with
  | some c => reject c s
  | none => effect s

/-! ### Entering FAULT, and the way out -/

/-- ENG_STATE <- FAULT with its cause: the shared entry of both faults (60_exceptions.md R183). -/
def enterFault (c : FaultCause) (s : State) : State := { s with engState := .fault, faultCause := c }

/-- `config_fault()` (42_transfer.md R147): FAULT with cause CONFIG, ERRCODE <- FAULTED, and the command retires. -/
def configFault (s : State) : State := retire { enterFault .config s with errcode := .faulted }

/-- The RESET step (70_reset_and_hazards.md R200), the only way out of FAULT (R203): every reset value, PENDING
empty, WIRE and the parameters unchanged. The environment's own fields are no state of the block. -/
def resetStep (s : State) : State :=
  { s with
    engState := .idle
    own0 := .producer
    own1 := .producer
    fb0 := []
    fb1 := []
    curBuf := 0
    xferPtr := 0
    faultCause := .none
    errcode := .none
    result := 0
    resultKind := .none
    pending := none }

/-! ### The environment's moves -/

/-- The move taken next: the head of the schedule, or, where the schedule is empty, a free value (log 4). -/
def State.nextMove (s : State) : Move :=
  match s.schedule with
  | m :: _ => m
  | [] => Config.freeMove s.drawn

/-- The state once that move is taken off the schedule, or counted as drawn. -/
def State.advance (s : State) : State :=
  match s.schedule with
  | _ :: ms => { s with schedule := ms }
  | [] => { s with drawn := s.drawn + 1 }

end Sys2Proof.Machine
end

