-- ==== Sys2Proof/Machine/Operands.lean ====
section
/-! DEFINITION. The operand forms: a buffer index against NBUF, an offset or a coordinate pair against the geometry,
and the pixel that FBWR and FBWRXY take from RESULT. -/

namespace Sys2Proof.Machine

/-- k < NBUF (41_framebuffer.md R122). -/
def bufferExists (k : BufIdx) (s : State) : Bool := decide (k.toNat < s.params.nbuf.count)

/-- o < CAP (41_framebuffer.md R121). -/
def offsetInBounds (o : BitVec 16) (s : State) : Bool := decide (o.toNat < s.params.cap)

/-- x < W and y < H, each on its own (41_framebuffer.md R121). -/
def coordInBounds (x y : BitVec 8) (s : State) : Bool :=
  decide (x.toNat < s.params.width) && decide (y.toNat < s.params.height)

/-- `offset = y * width + x`, exact (20_memory.md R51). -/
def coordOffset (x y : BitVec 8) (s : State) : Nat := y.toNat * s.params.width + x.toNat

/-- `RESULT[PIXEL_BITS-1:0]`, the pixel a write stores (41_framebuffer.md R125). -/
def resultPixel (s : State) : Pixel :=
  match s.params.format with
  | .rgb565 => (s.result.extractLsb' 0 16).setWidth 18
  | .rgb666 => s.result.extractLsb' 0 18

/-- `PIXKIND` (00_scope.md R13). -/
def pixKind (s : State) : Kind :=
  match s.params.format with
  | .rgb565 => .pix565
  | .rgb666 => .pix666

end Sys2Proof.Machine
end

