-- ==== Sys2Proof/Machine/Flags.lean ====
section
/-! DEFINITION. The numeric codes of 00_scope.md R13 and 60_exceptions.md R180, the STATUS word of 10_state.md R31,
and the check lists of 60_exceptions.md R186 that decide ERRCODE. -/

namespace Sys2Proof.Machine

/-! ### Codes -/

/-- Owner codes (00_scope.md R13). -/
def ownerCode : Owner → BitVec 1
  | .producer => 0
  | .engine => 1

/-- EngState codes (00_scope.md R13). -/
def engCode : EngState → BitVec 2
  | .idle => 0
  | .submitted => 1
  | .completing => 2
  | .fault => 3

/-- FaultCause codes (00_scope.md R13). -/
def causeCode : FaultCause → BitVec 2
  | .none => 0
  | .transfer => 1
  | .config => 2

/-- Kind codes, 3 bits (00_scope.md R13). No command shows them (10_state.md R21). -/
def kindCode : Kind → BitVec 3
  | .none => 0
  | .pix565 => 1
  | .pix666 => 2
  | .wire => 3
  | .handle => 4
  | .status => 5

/-- ERRCODE codes (60_exceptions.md R180). -/
def errCode : ErrCode → BitVec 4
  | .none => 0
  | .illegal => 1
  | .bufidx => 2
  | .bounds => 3
  | .ownership => 4
  | .kind => 5
  | .busy => 6
  | .noxfer => 7
  | .faulted => 8

/-! ### The STATUS word -/

/-- STATUS bit 15, FORMAT (10_state.md R31). -/
def formatBit (s : State) : BitVec 1 :=
  match s.params.format with
  | .rgb565 => 0
  | .rgb666 => 1

/-- STATUS bit 16, NBUF2 (10_state.md R31). -/
def nbuf2Bit (s : State) : BitVec 1 :=
  match s.params.nbuf with
  | .one => 0
  | .two => 1

/-- STATUS bit 5, OWN1: it reads 0 when NBUF = 1 (10_state.md R31). -/
def own1Bit (s : State) : BitVec 1 :=
  match s.params.nbuf with
  | .one => 0
  | .two => ownerCode s.own1

/-- The STATUS word, from bit 31 down (10_state.md R31, 43_control.md R172). -/
def statusWord (s : State) : Word :=
  0#15 ++ nbuf2Bit s ++ formatBit s ++ 0#1 ++ causeCode s.faultCause ++ errCode s.errcode ++ 0#2 ++
    own1Bit s ++ ownerCode s.own0 ++ 0#1 ++ s.curBuf ++ engCode s.engState

/-! ### The check lists -/

/-- FBRD and FBRDXY: BUFIDX, BOUNDS, OWNERSHIP (41_framebuffer.md R120, 60_exceptions.md R186). ILLEGAL comes
before them, in the decoder. -/
def readChecks (k : BufIdx) (inBounds : Bool) (s : State) : Option ErrCode :=
  if bufferExists k s = false then some .bufidx
  else if inBounds = false then some .bounds
  else if s.own k = .engine then some .ownership
  else none

/-- FBWR and FBWRXY: the same, then KIND (41_framebuffer.md R120, R123). -/
def writeChecks (k : BufIdx) (inBounds : Bool) (s : State) : Option ErrCode :=
  match readChecks k inBounds s with
  | some c => some c
  | none => if s.resultKind = pixKind s then none else some .kind

/-- SUBMIT: BUFIDX, FAULTED, BUSY (42_transfer.md R144); ConfigurationFault comes after them. -/
def submitChecks (k : BufIdx) (s : State) : Option ErrCode :=
  if bufferExists k s = false then some .bufidx
  else match s.engState with
    | .fault => some .faulted
    | .submitted => some .busy
    | .completing => some .busy
    | .idle => none

/-- WAIT: BUFIDX, NOXFER in IDLE, FAULTED, NOXFER for another buffer (42_transfer.md R150); the hold comes after
them. -/
def waitChecks (k : BufIdx) (s : State) : Option ErrCode :=
  if bufferExists k s = false then some .bufidx
  else match s.engState with
    | .idle => some .noxfer
    | .fault => some .faulted
    | .submitted => if k = s.curBuf then none else some .noxfer
    | .completing => if k = s.curBuf then none else some .noxfer

end Sys2Proof.Machine
end

