-- ==== Sys2Proof/Machine/Codec.lean ====
section
/-! DEFINITION. The ColorCodec: PACK565, PACK666, SPLIT565, SPLIT666 (40_codec.md). -/

namespace Sys2Proof.Machine

/-- The 5-6-5 pixel of three channels (40_codec.md R101): truncation by logical shifts, composed by OR. -/
def pack565 (r g b : Byte) : BitVec 16 :=
  ((r >>> 3).setWidth 16 <<< 11) ||| ((g >>> 2).setWidth 16 <<< 5) ||| (b >>> 3).setWidth 16

/-- The 6-6-6 pixel of three channels (40_codec.md R104). -/
def pack666 (r g b : Byte) : BitVec 18 :=
  ((r >>> 2).setWidth 18 <<< 12) ||| ((g >>> 2).setWidth 18 <<< 6) ||| (b >>> 2).setWidth 18

/-- The high byte of a 5-6-5 pixel, sent first, and its low byte (40_codec.md R107). -/
def hiByte565 (p : BitVec 16) : Byte := p.extractLsb' 8 8
def loByte565 (p : BitVec 16) : Byte := p.extractLsb' 0 8

/-- The three bytes of a 6-6-6 pixel: each channel in bits [7:2] of its byte (40_codec.md R110). -/
def redByte666 (p : BitVec 18) : Byte := p.extractLsb' 12 6 ++ 0#2
def greenByte666 (p : BitVec 18) : Byte := p.extractLsb' 6 6 ++ 0#2
def blueByte666 (p : BitVec 18) : Byte := p.extractLsb' 0 6 ++ 0#2

/-- `zext_32({hi, lo})` (40_codec.md R107). -/
def split565 (p : BitVec 16) : Word := (hiByte565 p ++ loByte565 p).setWidth 32

/-- `zext_32({b0, b1, b2})` (40_codec.md R110). -/
def split666 (p : BitVec 18) : Word :=
  (redByte666 p ++ greenByte666 p ++ blueByte666 p).setWidth 32

/-- The wire bytes of a stored pixel, first byte first (20_memory.md R57, 42_transfer.md R160). -/
def pixelBytes (f : PixelFormat) (p : Pixel) : List Byte :=
  match f with
  | .rgb565 => [hiByte565 (p.extractLsb' 0 16), loByte565 (p.extractLsb' 0 16)]
  | .rgb666 => [redByte666 p, greenByte666 p, blueByte666 p]

/-- PACK565 (40_codec.md R101). -/
def execPack565 (r g b : Byte) (s : State) : Answer :=
  finish (writeResult ((pack565 r g b).setWidth 32) .pix565 s)

/-- PACK666 (40_codec.md R104). -/
def execPack666 (r g b : Byte) (s : State) : Answer :=
  finish (writeResult ((pack666 r g b).setWidth 32) .pix666 s)

/-- SPLIT565 (40_codec.md R107). -/
def execSplit565 (p : BitVec 16) (s : State) : Answer :=
  finish (writeResult (split565 p) .wire s)

/-- SPLIT666 (40_codec.md R110). -/
def execSplit666 (p : BitVec 18) (s : State) : Answer :=
  finish (writeResult (split666 p) .wire s)

end Sys2Proof.Machine
end

