-- ==== Sys2Proof/Machine/Control.lean ====
section
/-! DEFINITION. The control commands: NOP, STATUS, ERRCLR (43_control.md). -/

namespace Sys2Proof.Machine

/-- NOP (43_control.md R170). -/
def execNop (s : State) : Answer := finish s

/-- STATUS (43_control.md R172). -/
def execStatus (s : State) : Answer := finish (writeResult (statusWord s) .status s)

/-- ERRCLR (43_control.md R174): ERRCODE <- 0 and nothing else. -/
def execErrclr (s : State) : Answer := finish { s with errcode := .none }

end Sys2Proof.Machine
end

