-- ==== Sys2Proof/Machine/FrameBuffer.lean ====
section
/-! DEFINITION. Frame-buffer access: FBWR, FBRD, FBWRXY, FBRDXY (41_framebuffer.md). -/

namespace Sys2Proof.Machine

/-- The effect of a write at offset `o` of buffer `k` (41_framebuffer.md R125): the element only. -/
def storePixel (k : BufIdx) (o : Nat) (s : State) : Answer :=
  finish (fbWrite k o (resultPixel s) s)

/-- The effect of a read at offset `o` of buffer `k` (41_framebuffer.md R126): RESULT, of kind PIXKIND. -/
def loadPixel (k : BufIdx) (o : Nat) (s : State) : Answer :=
  finish (writeResult ((fbRead k o s).setWidth 32) (pixKind s) s)

/-- FBWR (41_framebuffer.md R125). -/
def execFbwr (k : BufIdx) (o : BitVec 16) (s : State) : Answer :=
  unlessRejected (writeChecks k (offsetInBounds o s) s) (storePixel k o.toNat) s

/-- FBRD (41_framebuffer.md R126). -/
def execFbrd (k : BufIdx) (o : BitVec 16) (s : State) : Answer :=
  unlessRejected (readChecks k (offsetInBounds o s) s) (loadPixel k o.toNat) s

/-- FBWRXY (41_framebuffer.md R128). -/
def execFbwrxy (k : BufIdx) (x y : BitVec 8) (s : State) : Answer :=
  unlessRejected (writeChecks k (coordInBounds x y s) s) (storePixel k (coordOffset x y s)) s

/-- FBRDXY (41_framebuffer.md R129). -/
def execFbrdxy (k : BufIdx) (x y : BitVec 8) (s : State) : Answer :=
  unlessRejected (readChecks k (coordInBounds x y s) s) (loadPixel k (coordOffset x y s)) s

end Sys2Proof.Machine
end

