-- ==== Sys2Proof/Machine/Transfer.lean ====
section
/-! DEFINITION. The TransferEngine: SUBMIT, WAIT, and the transport's events EMIT, DONE, XERR (42_transfer.md). -/

namespace Sys2Proof.Machine

/-- The hand-off, one atomic step (42_transfer.md R145): the buffer goes to the engine and the transfer starts. -/
def handOff (k : BufIdx) (s : State) : State :=
  writeResult (k.setWidth 32) .handle
    { s.setOwn k .engine with curBuf := k, xferPtr := 0, engState := .submitted }

/-- What a SUBMIT that passes its checks does: the hand-off, or the ConfigurationFault of an unready transport
(42_transfer.md R145, R147). -/
def submitEffect (k : BufIdx) (s : State) : State :=
  if s.xportReady then retire (handOff k s) else configFault s

/-- SUBMIT (42_transfer.md R144, R145). -/
def execSubmit (k : BufIdx) (s : State) : Answer :=
  unlessRejected (submitChecks k s) (fun s => .next (submitEffect k s)) s

/-- The reclaim, one atomic step (42_transfer.md R155): the buffer goes back to the producer. -/
def reclaim (k : BufIdx) (s : State) : State :=
  writeResult (k.setWidth 32) .handle { s.setOwn k .producer with engState := .idle }

/-- WAIT (42_transfer.md R150, R151, R155): it holds in SUBMITTED, and reclaims in COMPLETING. -/
def execWait (k : BufIdx) (s : State) : Answer :=
  unlessRejected (waitChecks k s)
    (fun s => if s.engState = .submitted then hold s else finish (reclaim k s)) s

/-- EMIT (42_transfer.md R160): the next pixel's bytes go on the wire. Enabled in SUBMITTED with XFER_PTR < CAP
(R158); otherwise there is no such step (log 7). -/
def emitEvent (s : State) : Answer :=
  if s.engState = .submitted ∧ s.xferPtr < s.params.cap then
    match xRead s.xferPtr s with
    | some p =>
      .next { s with wire := s.wire ++ pixelBytes s.params.format p, xferPtr := s.xferPtr + 1 }
    | none => .fault .transportPortUndefined
  else .next s

/-- DONE (42_transfer.md R161). Enabled in SUBMITTED with XFER_PTR = CAP. -/
def doneEvent (s : State) : State :=
  if s.engState = .submitted ∧ s.xferPtr = s.params.cap then { s with engState := .completing } else s

/-- XERR (42_transfer.md R162): the TransferFault. Enabled in SUBMITTED. -/
def xerrEvent (s : State) : State :=
  if s.engState = .submitted then enterFault .transfer s else s

end Sys2Proof.Machine
end

