-- ==== Sys2Proof/Machine/Dispatch.lean ====
section
/-! DEFINITION. The one match from a command to its meaning. -/

namespace Sys2Proof.Machine

def exec (i : Instr) (s : State) : Host.Outcome State Fault Refusal :=
  match i with
  | .nop => Sys2Proof.Machine.execNop s
  | .pack565 r g b => Sys2Proof.Machine.execPack565 r g b s
  | .pack666 r g b => Sys2Proof.Machine.execPack666 r g b s
  | .split565 p => Sys2Proof.Machine.execSplit565 p s
  | .split666 p => Sys2Proof.Machine.execSplit666 p s
  | .fbwr k o => Sys2Proof.Machine.execFbwr k o s
  | .fbrd k o => Sys2Proof.Machine.execFbrd k o s
  | .fbwrxy k x y => Sys2Proof.Machine.execFbwrxy k x y s
  | .fbrdxy k x y => Sys2Proof.Machine.execFbrdxy k x y s
  | .submit k => Sys2Proof.Machine.execSubmit k s
  | .wait k => Sys2Proof.Machine.execWait k s
  | .status => Sys2Proof.Machine.execStatus s
  | .errclr => Sys2Proof.Machine.execErrclr s

end Sys2Proof.Machine
end

