-- ==== Sys2Proof/Machine/Moves.lean ====
section
/-! DEFINITION. What each agent's step does (00_scope.md R7, R8), and which of them comes next: RESET at any time; a
pending command as soon as it no longer holds; otherwise the next move of the schedule. -/

namespace Sys2Proof.Machine

/-- Evaluate a command word: its command's meaning, or ILLEGAL (30_encoding.md R85). -/
def evalWord (w : Word) (s : State) : Answer :=
  match decode w with
  | .command i => exec i s
  | .reserved => reject .illegal s
  | .illegal => reject .illegal s

/-- The word `w` is in PENDING and xport_ready is at the level `ready` (10_state.md R24, R35). -/
def issued (w : Word) (ready : Bool) (s : State) : State :=
  { s with pending := some w, xportReady := ready }

/-- The HOST's step (10_state.md R24): when PENDING is empty the word becomes PENDING and is evaluated, so that it
retires or holds. While a command is pending the HOST cannot issue another, so there is no such step (log 7). -/
def hostStep (w : Word) (ready : Bool) (s : State) : Answer :=
  match s.pending with
  | none => evalWord w (issued w ready s)
  | some _ => .next s

/-- What one move does. -/
def moveStep (m : Move) (s : State) : Answer :=
  match m with
  | .host w ready => hostStep w ready s
  | .emit => emitEvent s
  | .done => .next (doneEvent s)
  | .xerr => .next (xerrEvent s)
  | .reset => .next (resetStep s)

/-- The pending command evaluated again (42_transfer.md R151): its answer where it retires, and `none` where PENDING
is empty or the command holds, which is to stay in PENDING (10_state.md R24). -/
def reevaluated (s : State) : Option Answer :=
  match s.pending with
  | none => none
  | some w =>
    match evalWord w s with
    | .next t => if t.pending = none then some (.next t) else none
    | .fault f => some (.fault f)
    | .refused r => some (.refused r)

/-- The next step of the machine. RESET can come at any time, while a WAIT holds too (70_reset_and_hazards.md R200).
A pending command that no longer holds retires before any other agent's step (42_transfer.md R151; log 16). Otherwise
the next move is taken off the schedule and made (00_scope.md R8; log 4). -/
def nextStep (s : State) : Answer :=
  if s.nextMove = .reset then moveStep .reset s.advance
  else
    match reevaluated s with
    | some a => a
    | none => moveStep s.nextMove s.advance

end Sys2Proof.Machine
end

