-- ==== Sys2Proof/Machine/Step.lean ====
section
/-! DEFINITION. One step of one agent (00_scope.md R8). -/

namespace Sys2Proof.Machine

/-- One step: a RESET, a pending command that retires, or the next move of the schedule. -/
def step (s : State) : Host.Outcome State Fault Refusal := nextStep s

/-- `s` with PENDING empty and, scheduled first, the HOST's step that issues the command word `w` of `nbits` bits, with
xport_ready left at its level (logs 5, 15). -/
def State.withFetchWord (s : State) (nbits w : Nat) : State :=
  { s with
    pending := none
    schedule := .host (BitVec.ofNat 32 (w % 2 ^ nbits)) s.xportReady :: s.schedule }

end Sys2Proof.Machine
end

