-- ==== Sys2Proof/Safety.lean ====
section
/-! DEFINITION. The terms the statements use: the invariants of reachable states (10_state.md R22, R28, R30), what a
command or a step leaves unchanged, runs, and the liveness premise of 42_transfer.md R163. -/

namespace Sys2Proof.Machine

/-! ### Invariants -/

/-- The engine holds a buffer: SUBMITTED, COMPLETING, or FAULT after a TransferFault (10_state.md R30). -/
def State.EngineHolds (s : State) : Prop :=
  s.engState = .submitted ∨ s.engState = .completing ∨
    (s.engState = .fault ∧ s.faultCause = .transfer)

/-- The ownership invariant of 10_state.md R30. -/
def State.OwnershipInv (s : State) : Prop :=
  ∀ k : BufIdx, k.toNat < s.params.nbuf.count →
    (s.own k = .engine ↔ k = s.curBuf ∧ s.EngineHolds)

/-- CUR_BUF names a buffer that exists, and is 0 when NBUF = 1 (10_state.md R27). -/
def State.CurBufExists (s : State) : Prop := s.curBuf.toNat < s.params.nbuf.count

/-- FAULT_CAUSE is NONE exactly outside FAULT (10_state.md R28). -/
def State.CauseInv (s : State) : Prop := s.faultCause = .none ↔ s.engState ≠ .fault

/-- XFER_PTR is an integer 0..CAP (10_state.md section 1), and COMPLETING is entered only at CAP (42_transfer.md
R161). -/
def State.PtrInv (s : State) : Prop :=
  s.xferPtr ≤ s.params.cap ∧ (s.engState = .completing → s.xferPtr = s.params.cap)

/-- The value invariant of RESULT by kind (10_state.md R22; the clause about a 5-6-5 split needs the command and
is stated with SPLIT565). The reserved bits of STATUS are [3], [7:6], [14] and [31:17] (R31). -/
def State.ResultInv (s : State) : Prop :=
  match s.resultKind with
  | .none => s.result = 0
  | .pix565 => s.result.extractLsb' 16 16 = 0
  | .pix666 => s.result.extractLsb' 18 14 = 0
  | .wire => s.result.extractLsb' 24 8 = 0
  | .handle => s.result.extractLsb' 1 31 = 0
  | .status => s.result &&& 0xFFFE40C8 = 0

/-- A buffer's contents are in canonical form, at offsets below CAP (20_memory.md R50), and every element is a value
of PIXEL_BITS bits (R53). -/
def Memory.Ok (p : Params) (m : Memory) : Prop :=
  Memory.wf p.sentinel m = true ∧ ∀ e ∈ m, e.1 < p.cap ∧ p.fits e.2 = true

/-- Both buffers are as `Memory.Ok` says. -/
def State.BuffersInv (s : State) : Prop := ∀ k : BufIdx, (s.fb k).Ok s.params

/-- With NBUF = 1 the second buffer's fields are inert (log 9). -/
def State.SecondBufferInv (s : State) : Prop :=
  s.params.nbuf = .one → s.own1 = .producer ∧ s.fb1 = []

/-- Only a WAIT can be left in PENDING (10_state.md R24): one on the buffer in transfer, which holds in SUBMITTED and
retires in the next step in COMPLETING and FAULT (42_transfer.md R151). -/
def State.PendingInv (s : State) : Prop :=
  ∀ w, s.pending = some w → decode w = .command (.wait s.curBuf) ∧ s.engState ≠ .idle

/-- The invariant of every reachable state. -/
structure State.Inv (s : State) : Prop where
  params : s.params.wf = true
  curBuf : s.CurBufExists
  owner : s.OwnershipInv
  cause : s.CauseInv
  ptr : s.PtrInv
  result : s.ResultInv
  buffers : s.BuffersInv
  second : s.SecondBufferInv
  pending : s.PendingInv

/-! ### What stays the same -/

/-- Every element of every buffer reads as before. -/
def SameBuffers (s t : State) : Prop := ∀ (k : BufIdx) (o : Nat), t.pixelAt k o = s.pixelAt k o

/-- Every element of every buffer but FB[k][o] reads as before. -/
def SameBuffersBut (k : BufIdx) (o : Nat) (s t : State) : Prop :=
  ∀ (j : BufIdx) (a : Nat), (j = k ∧ a = o) ∨ t.pixelAt j a = s.pixelAt j a

/-- RESULT and RESULT_KIND are unchanged. -/
def SameResult (s t : State) : Prop := t.result = s.result ∧ t.resultKind = s.resultKind

/-- ENG_STATE, CUR_BUF, FAULT_CAUSE, every OWN and XFER_PTR are unchanged. -/
def SameEngine (s t : State) : Prop :=
  t.engState = s.engState ∧ t.curBuf = s.curBuf ∧ t.faultCause = s.faultCause ∧
    (∀ k : BufIdx, t.own k = s.own k) ∧ t.xferPtr = s.xferPtr

/-- The parameters and the model's own fields are unchanged. -/
def SameEnvironment (s t : State) : Prop :=
  t.params = s.params ∧ t.xportReady = s.xportReady ∧ t.schedule = s.schedule ∧ t.drawn = s.drawn

/-- The frame of a command that writes only RESULT and RESULT_KIND: it retires, and everything else is unchanged. -/
def OnlyResult (s t : State) : Prop :=
  t.pending = none ∧ t.errcode = s.errcode ∧ SameEngine s t ∧ SameBuffers s t ∧ t.wire = s.wire ∧
    SameEnvironment s t

/-- The frame of a rejection (60_exceptions.md R181): ERRCODE holds the code, the command retires, and everything
else is unchanged. -/
def OnlyErrcode (c : ErrCode) (s t : State) : Prop :=
  t.errcode = c ∧ t.pending = none ∧ SameResult s t ∧ SameEngine s t ∧ SameBuffers s t ∧
    t.wire = s.wire ∧ SameEnvironment s t

/-- The answer is a rejection with this code: a next state in which only ERRCODE and PENDING changed. -/
def Rejected (a : Answer) (c : ErrCode) (s : State) : Prop := ∃ t, a = .next t ∧ OnlyErrcode c s t

/-! ### Commands -/

/-- The codec commands (40_codec.md). -/
def IsCodec : Instr → Prop
  | .pack565 _ _ _ => True
  | .pack666 _ _ _ => True
  | .split565 _ => True
  | .split666 _ => True
  | .nop => False
  | .fbwr _ _ => False
  | .fbrd _ _ => False
  | .fbwrxy _ _ _ => False
  | .fbrdxy _ _ _ => False
  | .submit _ => False
  | .wait _ => False
  | .status => False
  | .errclr => False

/-- RESULT holds a pixel of the configured format, RESULT_KIND = PIXKIND (00_scope.md R13, 41_framebuffer.md R123). -/
def State.HoldsPixel (s : State) : Prop :=
  (s.params.format = .rgb565 ∧ s.resultKind = .pix565) ∨
    (s.params.format = .rgb666 ∧ s.resultKind = .pix666)

/-- A word of this opcode with a 1 under `mask`, its format's reserved field, is rejected ILLEGAL in every state,
before any other check (30_encoding.md R82). -/
def IllegalUnder (op : BitVec 4) (mask : Word) : Prop :=
  ∀ (w : Word) (s : State), opField w = op → w &&& mask ≠ 0 → Rejected (evalWord w s) .illegal s

/-- PENDING is empty, or a WAIT holds in it (42_transfer.md R151): no pending command retires in the next step. -/
def State.Quiet (s : State) : Prop :=
  s.pending = none ∨
    (s.CurBufExists ∧ s.engState = .submitted ∧ ∃ w, s.pending = some w ∧ decode w = .command (.wait s.curBuf))

/-- The next step is the HOST's and evaluates the word `w`: the HOST issues it (10_state.md R24), or it is pending and
no longer holds, and no reset comes first (42_transfer.md R151, 70_reset_and_hazards.md R200). -/
def State.EvaluatesWord (s : State) (w : Word) : Prop :=
  (s.pending = none ∧ ∃ ready, s.nextMove = .host w ready) ∨
    (s.pending = some w ∧ s.nextMove ≠ .reset ∧ ¬ s.Quiet)

/-- The next step is the HOST's and evaluates the command `i`. -/
def State.Evaluates (s : State) (i : Instr) : Prop :=
  ∃ w, s.EvaluatesWord w ∧ decode w = .command i

/-- The next step evaluates a write command that names FB[k][o]. -/
def State.WritesAt (s : State) (k : BufIdx) (o : Nat) : Prop :=
  (∃ a : BitVec 16, s.Evaluates (.fbwr k a) ∧ a.toNat = o) ∨
    (∃ x y : BitVec 8, s.Evaluates (.fbwrxy k x y) ∧ y.toNat * s.params.width + x.toNat = o)

/-! ### Runs -/

/-- The state after one step, or the same state where the step stops. -/
def State.stepOrStay (s : State) : State :=
  match step s with
  | .next t => t
  | .fault _ => s
  | .refused _ => s

/-- The state after `n` steps. -/
def State.after (s : State) : Nat → State
  | 0 => s
  | n + 1 => (s.after n).stepOrStay

/-- The next step is a TRANSPORT event (42_transfer.md R158): the next move is one that is enabled, and no pending
command retires first. -/
def State.TransportMoves (s : State) : Prop :=
  s.Quiet ∧ s.engState = .submitted ∧
    ((s.nextMove = .emit ∧ s.xferPtr < s.params.cap) ∨
      (s.nextMove = .done ∧ s.xferPtr = s.params.cap) ∨ s.nextMove = .xerr)

/-- The premise TRANSPORT_LIVE, weak fairness of the TRANSPORT (42_transfer.md R163), asked only for as long as the
command pending in `s` stays pending: along the run from `s`, whenever the engine is SUBMITTED, a TRANSPORT event
happens later or the engine leaves SUBMITTED. It is the only progress assumption of the model
(70_reset_and_hazards.md R212). -/
def State.TransportLive (s : State) : Prop :=
  ∀ n, (∀ m, m ≤ n → (s.after m).pending = s.pending) → (s.after n).engState = .submitted →
    ∃ m, n ≤ m ∧ ((s.after m).engState ≠ .submitted ∨ (s.after m).TransportMoves)

/-- The wire bytes of the first `n` elements of buffer `k`, in offset order (20_memory.md R52, R57). -/
def State.frameBytes (s : State) (k : BufIdx) : Nat → List Byte
  | 0 => []
  | n + 1 => s.frameBytes k n ++ pixelBytes s.params.format (s.pixelAt k n)

end Sys2Proof.Machine
end

