-- ==== Sys2Proof/Certificates/Slice0/Obligations.lean ====
section
/-! DEFINITION. The statements for the provers. Each formalises a rule of spec/, named in its docstring; one that rests
on a choice of the model names its log entry. -/

open Sys2Proof Sys2Proof.Machine

/-! ### Encoding -/

/-- The example words of 30_encoding.md section 5, one per command, and words of 95_test_vectors.md section 2.2. -/
def Obligations.SpecWordsDecode : Prop :=
  decode 0x00000000 = .command .nop ∧
  decode 0x10123456 = .command (.pack565 0x12 0x34 0x56) ∧
  decode 0x20123456 = .command (.pack666 0x12 0x34 0x56) ∧
  decode 0x300011AA = .command (.split565 0x11AA) ∧
  decode 0x40004355 = .command (.split666 0x4355) ∧
  decode 0x58000005 = .command (.fbwr 1 5) ∧
  decode 0x60000005 = .command (.fbrd 0 5) ∧
  decode 0x70000203 = .command (.fbwrxy 0 3 2) ∧
  decode 0x88000203 = .command (.fbrdxy 1 3 2) ∧
  decode 0x98000000 = .command (.submit 1) ∧
  decode 0xA0000000 = .command (.wait 0) ∧
  decode 0xB0000000 = .command .status ∧
  decode 0xC0000000 = .command .errclr ∧
  decode 0x38000000 = .illegal ∧ decode 0x54000000 = .illegal ∧ decode 0xD0000000 = .reserved

/-- Decoding the encoding of any command gives it back, with every operand at every value its field admits. -/
def Obligations.DecodeAfterEncode : Prop := ∀ i : Instr, decode (encode i) = .command i

/-- Each command has one word only: a word that decodes to a command is that command's encoding. -/
def Obligations.EncodeAfterDecode : Prop :=
  ∀ (w : Word) (i : Instr), decode w = .command i → encode i = w

/-- 30_encoding.md R85: every word is one of the 13 commands, a reserved opcode, or a command whose reserved field,
written here as the mask of spec/opcode_table.json less the opcode, holds a 1. -/
def Obligations.DecodeClassifiesEveryWord : Prop :=
  ∀ w : Word,
    (decode w = .reserved ↔ 0xD ≤ (opField w).toNat) ∧
    (decode w = .illegal ↔
      (opField w = 0x0 ∧ w &&& 0x0FFFFFFF ≠ 0) ∨
      ((opField w = 0x1 ∨ opField w = 0x2) ∧ w &&& 0x0F000000 ≠ 0) ∨
      (opField w = 0x3 ∧ w &&& 0x0FFF0000 ≠ 0) ∨
      (opField w = 0x4 ∧ w &&& 0x0FFC0000 ≠ 0) ∨
      ((opField w = 0x5 ∨ opField w = 0x6 ∨ opField w = 0x7 ∨ opField w = 0x8) ∧
        w &&& 0x07FF0000 ≠ 0) ∨
      ((opField w = 0x9 ∨ opField w = 0xA) ∧ w &&& 0x07FFFFFF ≠ 0) ∨
      ((opField w = 0xB ∨ opField w = 0xC) ∧ w &&& 0x0FFFFFFF ≠ 0)) ∧
    ((∃ i, decode w = .command i ∧ opcodeOf i = opField w) ∨ decode w = .reserved ∨
      decode w = .illegal)

/-- 30_encoding.md R87: the assembler refuses exactly the operands that do not fit, and places the others by the
field positions of R72 to R78, written here as numbers. -/
def Obligations.AssemblerPlacesOperands : Prop :=
  ∀ (f : PixelFormat) (r g b p k o x y : Nat),
    assemble f .nop = some [0x00000000] ∧
    assemble f (.pack565 r g b) = (if r ≤ 255 ∧ g ≤ 255 ∧ b ≤ 255 then
      some [BitVec.ofNat 32 (0x1 * 2 ^ 28 + r * 2 ^ 16 + g * 2 ^ 8 + b)] else none) ∧
    assemble f (.pack666 r g b) = (if r ≤ 255 ∧ g ≤ 255 ∧ b ≤ 255 then
      some [BitVec.ofNat 32 (0x2 * 2 ^ 28 + r * 2 ^ 16 + g * 2 ^ 8 + b)] else none) ∧
    assemble f (.split565 p) = (if p ≤ 0xFFFF then
      some [BitVec.ofNat 32 (0x3 * 2 ^ 28 + p)] else none) ∧
    assemble f (.split666 p) = (if p ≤ 0x3FFFF then
      some [BitVec.ofNat 32 (0x4 * 2 ^ 28 + p)] else none) ∧
    assemble f (.fbwr k o) = (if k ≤ 1 ∧ o ≤ 65535 then
      some [BitVec.ofNat 32 (0x5 * 2 ^ 28 + k * 2 ^ 27 + o)] else none) ∧
    assemble f (.fbrd k o) = (if k ≤ 1 ∧ o ≤ 65535 then
      some [BitVec.ofNat 32 (0x6 * 2 ^ 28 + k * 2 ^ 27 + o)] else none) ∧
    assemble f (.fbwrxy k x y) = (if k ≤ 1 ∧ x ≤ 255 ∧ y ≤ 255 then
      some [BitVec.ofNat 32 (0x7 * 2 ^ 28 + k * 2 ^ 27 + y * 2 ^ 8 + x)] else none) ∧
    assemble f (.fbrdxy k x y) = (if k ≤ 1 ∧ x ≤ 255 ∧ y ≤ 255 then
      some [BitVec.ofNat 32 (0x8 * 2 ^ 28 + k * 2 ^ 27 + y * 2 ^ 8 + x)] else none) ∧
    assemble f (.submit k) = (if k ≤ 1 then
      some [BitVec.ofNat 32 (0x9 * 2 ^ 28 + k * 2 ^ 27)] else none) ∧
    assemble f (.wait k) = (if k ≤ 1 then
      some [BitVec.ofNat 32 (0xA * 2 ^ 28 + k * 2 ^ 27)] else none) ∧
    assemble f .status = some [0xB0000000] ∧
    assemble f .errclr = some [0xC0000000]

/-- 30_encoding.md R88: each pseudo-instruction assembles to its expansion, and to nothing where a part of it does not
assemble. -/
def Obligations.PseudoInstructionsExpand : Prop :=
  ∀ (f : PixelFormat) (k x y o r g b : Nat),
    assemble .rgb565 (.pack r g b) = assemble .rgb565 (.pack565 r g b) ∧
    assemble .rgb666 (.pack r g b) = assemble .rgb666 (.pack666 r g b) ∧
    assemble f (.put k x y r g b) =
      ((assemble f (.pack r g b)).bind fun a => (assemble f (.fbwrxy k x y)).map fun c => a ++ c) ∧
    assemble f (.puto k o r g b) =
      ((assemble f (.pack r g b)).bind fun a => (assemble f (.fbwr k o)).map fun c => a ++ c) ∧
    assemble f (.xfer k) =
      ((assemble f (.submit k)).bind fun a => (assemble f (.wait k)).map fun c => a ++ c) ∧
    assemble f (.reclaim k) = assemble f (.wait k)

/-! ### Steps -/

/-- 10_state.md R24, 00_scope.md R8: with PENDING empty, the step in which the HOST issues a word is the meaning of the
command it decodes to, or the rejection ILLEGAL, with the word in PENDING and xport_ready at its level. While a command
is pending and holds, no word is issued. A pending command that does not hold retires in the next step, before any
other agent's step but a reset. (That issuing and evaluating a word are one step is the model's reading, log 6.) -/
def Obligations.HostStepRunsCommand : Prop :=
  (∀ (s : State) (w : Word) (ready : Bool), s.nextMove = .host w ready →
    (∀ i : Instr, s.pending = none → decode w = .command i →
      step s = exec i { s.advance with pending := some w, xportReady := ready }) ∧
    (s.pending = none → (∀ i, decode w ≠ .command i) →
      Rejected (step s) .illegal { s.advance with pending := some w, xportReady := ready }) ∧
    (s.pending ≠ none → s.Quiet → step s = .next s.advance)) ∧
  (∀ (s t : State) (w : Word), s.nextMove ≠ .reset → s.pending = some w → evalWord w s = .next t →
    t.pending = none → step s = .next t)

/-- A command word that `withFetchWord` has the HOST issue is what the very next step runs, from any state. -/
def Obligations.FetchedWordRunsNext : Prop :=
  ∀ (s : State) (w : Word) (i : Instr), decode w = .command i →
    step (s.withFetchWord 32 w.toNat) = exec i { s with pending := some w }

/-- 30_encoding.md R81 and R82: a reserved opcode, or a 1 in the reserved field of the word's format, is rejected
ILLEGAL (code 1) in every state and has no other effect. -/
def Obligations.IllegalWordsOnlySetErrcode : Prop :=
  (∀ (w : Word) (s : State), 0xD ≤ (opField w).toNat → Rejected (evalWord w s) .illegal s) ∧
  errCode .illegal = 1 ∧
  IllegalUnder 0x0 0x0FFFFFFF ∧ IllegalUnder 0x1 0x0F000000 ∧ IllegalUnder 0x2 0x0F000000 ∧
  IllegalUnder 0x3 0x0FFF0000 ∧ IllegalUnder 0x4 0x0FFC0000 ∧ IllegalUnder 0x5 0x07FF0000 ∧
  IllegalUnder 0x6 0x07FF0000 ∧ IllegalUnder 0x7 0x07FF0000 ∧ IllegalUnder 0x8 0x07FF0000 ∧
  IllegalUnder 0x9 0x07FFFFFF ∧ IllegalUnder 0xA 0x07FFFFFF ∧ IllegalUnder 0xB 0x0FFFFFFF ∧
  IllegalUnder 0xC 0x0FFFFFFF

/-- 60_exceptions.md R181: a rejection sets ERRCODE to its code, retires the command, and changes nothing else. -/
def Obligations.RejectionIsPrecise : Prop :=
  ∀ (c : ErrCode) (s : State), Rejected (reject c s) c s

/-! ### ColorCodec -/

/-- 40_codec.md R101: PACK565, in every state. -/
def Obligations.Pack565Command : Prop :=
  (∀ (r g b : Byte) (s : State),
    evalWord (0x1#4 ++ 0#4 ++ r ++ g ++ b) s = exec (.pack565 r g b) s ∧
    ∃ t, exec (.pack565 r g b) s = .next t ∧
      t.result = (((r >>> 3).setWidth 32 <<< 11) ||| ((g >>> 2).setWidth 32 <<< 5) |||
        (b >>> 3).setWidth 32) ∧
      t.resultKind = .pix565 ∧ OnlyResult s t) ∧
  IllegalUnder 0x1 0x0F000000

/-- 40_codec.md R104: PACK666, in every state. -/
def Obligations.Pack666Command : Prop :=
  (∀ (r g b : Byte) (s : State),
    evalWord (0x2#4 ++ 0#4 ++ r ++ g ++ b) s = exec (.pack666 r g b) s ∧
    ∃ t, exec (.pack666 r g b) s = .next t ∧
      t.result = (((r >>> 2).setWidth 32 <<< 12) ||| ((g >>> 2).setWidth 32 <<< 6) |||
        (b >>> 2).setWidth 32) ∧
      t.resultKind = .pix666 ∧ OnlyResult s t) ∧
  IllegalUnder 0x2 0x0F000000

/-- 40_codec.md R107: SPLIT565, in every state, on every 16-bit operand. -/
def Obligations.Split565Command : Prop :=
  (∀ (p : BitVec 16) (s : State),
    evalWord (0x3#4 ++ 0#12 ++ p) s = exec (.split565 p) s ∧
    ∃ t, exec (.split565 p) s = .next t ∧
      t.result.extractLsb' 8 8 = p.extractLsb' 8 8 ∧ t.result.extractLsb' 0 8 = p.extractLsb' 0 8 ∧
      t.result.extractLsb' 16 16 = 0 ∧ t.resultKind = .wire ∧ OnlyResult s t) ∧
  IllegalUnder 0x3 0x0FFF0000

/-- 40_codec.md R110: SPLIT666, in every state, on every 18-bit operand. -/
def Obligations.Split666Command : Prop :=
  (∀ (p : BitVec 18) (s : State),
    evalWord (0x4#4 ++ 0#10 ++ p) s = exec (.split666 p) s ∧
    ∃ t, exec (.split666 p) s = .next t ∧
      t.result.extractLsb' 18 6 = p.extractLsb' 12 6 ∧ t.result.extractLsb' 16 2 = 0 ∧
      t.result.extractLsb' 10 6 = p.extractLsb' 6 6 ∧ t.result.extractLsb' 8 2 = 0 ∧
      t.result.extractLsb' 2 6 = p.extractLsb' 0 6 ∧ t.result.extractLsb' 0 2 = 0 ∧
      t.result.extractLsb' 24 8 = 0 ∧ t.resultKind = .wire ∧ OnlyResult s t) ∧
  IllegalUnder 0x4 0x0FFC0000

/-- 40_codec.md R102 (e) and R104: which bits of the channels each field of a packed pixel holds. -/
def Obligations.PackedFieldsAreTopBits : Prop :=
  ∀ (r g b : Byte) (s t : State),
    (exec (.pack565 r g b) s = .next t →
      t.result.extractLsb' 11 5 = r.extractLsb' 3 5 ∧ t.result.extractLsb' 5 6 = g.extractLsb' 2 6 ∧
      t.result.extractLsb' 0 5 = b.extractLsb' 3 5 ∧ t.result.extractLsb' 16 16 = 0) ∧
    (exec (.pack666 r g b) s = .next t →
      t.result.extractLsb' 12 6 = r.extractLsb' 2 6 ∧ t.result.extractLsb' 6 6 = g.extractLsb' 2 6 ∧
      t.result.extractLsb' 0 6 = b.extractLsb' 2 6 ∧ t.result.extractLsb' 18 14 = 0)

/-- 40_codec.md R103: the channel bits below the kept width never affect the output of PACK565; and R105 (e), the
same of PACK666. -/
def Obligations.PackIgnoresLowChannelBits : Prop :=
  ∀ (r g b : Byte) (s : State),
    exec (.pack565 r g b) s = exec (.pack565 (r &&& 0xF8) (g &&& 0xFC) (b &&& 0xF8)) s ∧
    exec (.pack666 r g b) s = exec (.pack666 (r &&& 0xFC) (g &&& 0xFC) (b &&& 0xFC)) s

/-- 40_codec.md R113: no carry arises, so the packed value is the sum of the shifted channels, each a quotient of the
unsigned channel; and no codec command fails. -/
def Obligations.PackComposesByAddition : Prop :=
  ∀ (r g b : Byte) (s : State),
    (∃ t, exec (.pack565 r g b) s = .next t ∧
      t.result.toNat = r.toNat / 8 * 2048 + g.toNat / 4 * 32 + b.toNat / 8) ∧
    (∃ t, exec (.pack666 r g b) s = .next t ∧
      t.result.toNat = r.toNat / 4 * 4096 + g.toNat / 4 * 64 + b.toNat / 4)

/-- 40_codec.md R111 (c): splitting a 6-6-6 pixel gives each channel with its two low bits cleared. -/
def Obligations.SplitOfPackClearsLowBits : Prop :=
  ∀ (r g b : Byte) (s t : State), exec (.pack666 r g b) s = .next t →
    ∃ u, exec (.split666 (t.result.extractLsb' 0 18)) t = .next u ∧
      u.result.extractLsb' 16 8 = r &&& 0xFC ∧ u.result.extractLsb' 8 8 = g &&& 0xFC ∧
      u.result.extractLsb' 0 8 = b &&& 0xFC

/-- 40_codec.md R100: what a codec command writes depends on its operands alone, in every engine state, and it writes
nothing but RESULT and RESULT_KIND; its only rejection is ILLEGAL, for a word with a nonzero reserved field. -/
def Obligations.CodecReadsOnlyOperands : Prop :=
  (∀ i : Instr, IsCodec i → ∃ (v : Word) (kd : Kind), ∀ s : State,
    ∃ t, exec i s = .next t ∧ t.result = v ∧ t.resultKind = kd ∧ OnlyResult s t) ∧
  IllegalUnder 0x1 0x0F000000 ∧ IllegalUnder 0x2 0x0F000000 ∧ IllegalUnder 0x3 0x0FFF0000 ∧
  IllegalUnder 0x4 0x0FFC0000

/-! ### Frame buffer -/

/-- 41_framebuffer.md R125: FBWR, its checks in order and its effect. -/
def Obligations.FbwrCommand : Prop :=
  (∀ (k : BufIdx) (o : BitVec 16) (s : State),
    evalWord (0x5#4 ++ k ++ 0#11 ++ o) s = exec (.fbwr k o) s ∧
    (s.params.nbuf.count ≤ k.toNat → Rejected (exec (.fbwr k o) s) .bufidx s) ∧
    (k.toNat < s.params.nbuf.count → s.params.cap ≤ o.toNat →
      Rejected (exec (.fbwr k o) s) .bounds s) ∧
    (k.toNat < s.params.nbuf.count → o.toNat < s.params.cap → s.own k = .engine →
      Rejected (exec (.fbwr k o) s) .ownership s) ∧
    (k.toNat < s.params.nbuf.count → o.toNat < s.params.cap → s.own k = .producer →
      ¬ s.HoldsPixel → Rejected (exec (.fbwr k o) s) .kind s) ∧
    (k.toNat < s.params.nbuf.count → o.toNat < s.params.cap → s.own k = .producer →
      s.HoldsPixel → s.BuffersInv →
      ∃ t, exec (.fbwr k o) s = .next t ∧
        (t.pixelAt k o.toNat).toNat = s.result.toNat % 2 ^ s.params.pixelBits ∧
        SameBuffersBut k o.toNat s t ∧ t.pending = none ∧ SameResult s t ∧ t.errcode = s.errcode ∧
        SameEngine s t ∧ t.wire = s.wire ∧ SameEnvironment s t)) ∧
  IllegalUnder 0x5 0x07FF0000

/-- 41_framebuffer.md R126: FBRD, its checks in order and its effect. -/
def Obligations.FbrdCommand : Prop :=
  (∀ (k : BufIdx) (o : BitVec 16) (s : State),
    evalWord (0x6#4 ++ k ++ 0#11 ++ o) s = exec (.fbrd k o) s ∧
    (s.params.nbuf.count ≤ k.toNat → Rejected (exec (.fbrd k o) s) .bufidx s) ∧
    (k.toNat < s.params.nbuf.count → s.params.cap ≤ o.toNat →
      Rejected (exec (.fbrd k o) s) .bounds s) ∧
    (k.toNat < s.params.nbuf.count → o.toNat < s.params.cap → s.own k = .engine →
      Rejected (exec (.fbrd k o) s) .ownership s) ∧
    (k.toNat < s.params.nbuf.count → o.toNat < s.params.cap → s.own k = .producer →
      ∃ t, exec (.fbrd k o) s = .next t ∧
        t.result.toNat = (s.pixelAt k o.toNat).toNat ∧ t.HoldsPixel ∧ OnlyResult s t)) ∧
  IllegalUnder 0x6 0x07FF0000

/-- 41_framebuffer.md R128: FBWRXY, its checks in order, each coordinate on its own, and its effect at y * W + x. -/
def Obligations.FbwrxyCommand : Prop :=
  (∀ (k : BufIdx) (x y : BitVec 8) (s : State),
    evalWord (0x7#4 ++ k ++ 0#11 ++ y ++ x) s = exec (.fbwrxy k x y) s ∧
    (s.params.nbuf.count ≤ k.toNat → Rejected (exec (.fbwrxy k x y) s) .bufidx s) ∧
    (k.toNat < s.params.nbuf.count → (s.params.width ≤ x.toNat ∨ s.params.height ≤ y.toNat) →
      Rejected (exec (.fbwrxy k x y) s) .bounds s) ∧
    (k.toNat < s.params.nbuf.count → x.toNat < s.params.width → y.toNat < s.params.height →
      s.own k = .engine → Rejected (exec (.fbwrxy k x y) s) .ownership s) ∧
    (k.toNat < s.params.nbuf.count → x.toNat < s.params.width → y.toNat < s.params.height →
      s.own k = .producer → ¬ s.HoldsPixel → Rejected (exec (.fbwrxy k x y) s) .kind s) ∧
    (k.toNat < s.params.nbuf.count → x.toNat < s.params.width → y.toNat < s.params.height →
      s.own k = .producer → s.HoldsPixel → s.BuffersInv →
      ∃ t, exec (.fbwrxy k x y) s = .next t ∧
        (t.pixelAt k (y.toNat * s.params.width + x.toNat)).toNat =
          s.result.toNat % 2 ^ s.params.pixelBits ∧
        SameBuffersBut k (y.toNat * s.params.width + x.toNat) s t ∧
        y.toNat * s.params.width + x.toNat < s.params.cap ∧ t.pending = none ∧ SameResult s t ∧
        t.errcode = s.errcode ∧ SameEngine s t ∧ t.wire = s.wire ∧ SameEnvironment s t)) ∧
  IllegalUnder 0x7 0x07FF0000

/-- 41_framebuffer.md R129: FBRDXY, its checks in order, each coordinate on its own, and its effect. -/
def Obligations.FbrdxyCommand : Prop :=
  (∀ (k : BufIdx) (x y : BitVec 8) (s : State),
    evalWord (0x8#4 ++ k ++ 0#11 ++ y ++ x) s = exec (.fbrdxy k x y) s ∧
    (s.params.nbuf.count ≤ k.toNat → Rejected (exec (.fbrdxy k x y) s) .bufidx s) ∧
    (k.toNat < s.params.nbuf.count → (s.params.width ≤ x.toNat ∨ s.params.height ≤ y.toNat) →
      Rejected (exec (.fbrdxy k x y) s) .bounds s) ∧
    (k.toNat < s.params.nbuf.count → x.toNat < s.params.width → y.toNat < s.params.height →
      s.own k = .engine → Rejected (exec (.fbrdxy k x y) s) .ownership s) ∧
    (k.toNat < s.params.nbuf.count → x.toNat < s.params.width → y.toNat < s.params.height →
      s.own k = .producer →
      ∃ t, exec (.fbrdxy k x y) s = .next t ∧
        t.result.toNat = (s.pixelAt k (y.toNat * s.params.width + x.toNat)).toNat ∧
        t.HoldsPixel ∧ OnlyResult s t)) ∧
  IllegalUnder 0x8 0x07FF0000

/-- 41_framebuffer.md R130 (c): by coordinates and by offset are the same access, for every in-bounds (x, y). -/
def Obligations.CoordinatesAgreeWithOffsets : Prop :=
  ∀ (k : BufIdx) (x y : BitVec 8) (s : State), s.params.wf = true →
    x.toNat < s.params.width → y.toNat < s.params.height →
    exec (.fbwrxy k x y) s = exec (.fbwr k (BitVec.ofNat 16 (y.toNat * s.params.width + x.toNat))) s ∧
    exec (.fbrdxy k x y) s = exec (.fbrd k (BitVec.ofNat 16 (y.toNat * s.params.width + x.toNat))) s

/-- 41_framebuffer.md R131, the write-then-read law, through any run: once FBWRXY k, x, y (or FBWR k, o) has its
effect, and as long as no write to that element and no reset intervenes, a later FBRDXY k, x, y (or FBRD k, o) of a
buffer the producer owns gives the value back, of the same kind. -/
def Obligations.ReadReturnsLastWrite : Prop :=
  (∀ (k : BufIdx) (x y : BitVec 8) (s : State) (n : Nat), s.Inv →
    k.toNat < s.params.nbuf.count → x.toNat < s.params.width → y.toNat < s.params.height →
    s.own k = .producer → s.HoldsPixel → s.Evaluates (.fbwrxy k x y) →
    (∀ m, 1 ≤ m → m ≤ n → ¬ (s.after m).WritesAt k (y.toNat * s.params.width + x.toNat) ∧
      (s.after m).nextMove ≠ .reset) →
    1 ≤ n → (s.after n).own k = .producer → (s.after n).Evaluates (.fbrdxy k x y) →
    (s.after (n + 1)).result = s.result ∧ (s.after (n + 1)).resultKind = s.resultKind ∧
      (s.after (n + 1)).pending = none) ∧
  (∀ (k : BufIdx) (o : BitVec 16) (s : State) (n : Nat), s.Inv →
    k.toNat < s.params.nbuf.count → o.toNat < s.params.cap →
    s.own k = .producer → s.HoldsPixel → s.Evaluates (.fbwr k o) →
    (∀ m, 1 ≤ m → m ≤ n → ¬ (s.after m).WritesAt k o.toNat ∧ (s.after m).nextMove ≠ .reset) →
    1 ≤ n → (s.after n).own k = .producer → (s.after n).Evaluates (.fbrd k o) →
    (s.after (n + 1)).result = s.result ∧ (s.after (n + 1)).resultKind = s.resultKind ∧
      (s.after (n + 1)).pending = none)

/-- Elements change only by a write that names them, on a buffer the producer owns, and by reset (20_memory.md R54 to
R56: neither the transport nor the engine ever writes a buffer). -/
def Obligations.OnlyWritesAndResetChangePixels : Prop :=
  ∀ (s t : State) (k : BufIdx) (o : Nat), s.BuffersInv → step s = .next t → s.nextMove ≠ .reset →
    (s.own k = .engine ∨ ¬ s.WritesAt k o) → t.pixelAt k o = s.pixelAt k o

/-- 41_framebuffer.md R124, as isolation: two states that differ only in the contents of a buffer the engine owns are
taken by any command to two states that differ only there, so the HOST learns nothing of that buffer and cannot
change it. -/
def Obligations.EngineBufferIsHiddenFromHost : Prop :=
  ∀ (i : Instr) (s : State) (k : BufIdx) (m : Memory), k.toNat < s.params.nbuf.count →
    s.own k = .engine →
    ∃ t, exec i s = .next t ∧ t.fb k = s.fb k ∧ exec i (s.setFb k m) = .next (t.setFb k m)

/-! ### TransferEngine -/

/-- 42_transfer.md R144, R145 and R147: SUBMIT, its checks in order, the ConfigurationFault and the hand-off. -/
def Obligations.SubmitCommand : Prop :=
  (∀ (k : BufIdx) (s : State),
    evalWord (0x9#4 ++ k ++ 0#27) s = exec (.submit k) s ∧
    (s.params.nbuf.count ≤ k.toNat → Rejected (exec (.submit k) s) .bufidx s) ∧
    (k.toNat < s.params.nbuf.count → s.engState = .fault →
      Rejected (exec (.submit k) s) .faulted s) ∧
    (k.toNat < s.params.nbuf.count → (s.engState = .submitted ∨ s.engState = .completing) →
      Rejected (exec (.submit k) s) .busy s) ∧
    (k.toNat < s.params.nbuf.count → s.engState = .idle → s.xportReady = false →
      ∃ t, exec (.submit k) s = .next t ∧ t.engState = .fault ∧ t.faultCause = .config ∧
        t.errcode = .faulted ∧ t.pending = none ∧ (∀ j, t.own j = s.own j) ∧
        t.curBuf = s.curBuf ∧ t.xferPtr = s.xferPtr ∧ SameResult s t ∧ SameBuffers s t ∧
        t.wire = s.wire ∧ SameEnvironment s t) ∧
    (k.toNat < s.params.nbuf.count → s.engState = .idle → s.xportReady = true →
      ∃ t, exec (.submit k) s = .next t ∧ t.own k = .engine ∧ (∀ j, j ≠ k → t.own j = s.own j) ∧
        t.curBuf = k ∧ t.xferPtr = 0 ∧ t.engState = .submitted ∧ t.result.toNat = k.toNat ∧
        t.resultKind = .handle ∧ t.pending = none ∧ t.errcode = s.errcode ∧
        t.faultCause = s.faultCause ∧ SameBuffers s t ∧ t.wire = s.wire ∧ SameEnvironment s t)) ∧
  IllegalUnder 0x9 0x07FFFFFF

/-- 42_transfer.md R150 and R155, with the hold of R151: WAIT, its checks in order, the hold, and the reclaim. -/
def Obligations.WaitCommand : Prop :=
  (∀ (k : BufIdx) (s : State),
    evalWord (0xA#4 ++ k ++ 0#27) s = exec (.wait k) s ∧
    (s.params.nbuf.count ≤ k.toNat → Rejected (exec (.wait k) s) .bufidx s) ∧
    (k.toNat < s.params.nbuf.count → s.engState = .idle → Rejected (exec (.wait k) s) .noxfer s) ∧
    (k.toNat < s.params.nbuf.count → s.engState = .fault → Rejected (exec (.wait k) s) .faulted s) ∧
    (k.toNat < s.params.nbuf.count → (s.engState = .submitted ∨ s.engState = .completing) →
      k ≠ s.curBuf → Rejected (exec (.wait k) s) .noxfer s) ∧
    (k.toNat < s.params.nbuf.count → s.engState = .submitted → k = s.curBuf →
      exec (.wait k) s = .next s) ∧
    (k.toNat < s.params.nbuf.count → s.engState = .completing → k = s.curBuf →
      ∃ t, exec (.wait k) s = .next t ∧ t.own k = .producer ∧ (∀ j, j ≠ k → t.own j = s.own j) ∧
        t.engState = .idle ∧ t.result.toNat = k.toNat ∧ t.resultKind = .handle ∧
        t.pending = none ∧ t.curBuf = s.curBuf ∧ t.xferPtr = s.xferPtr ∧
        t.faultCause = s.faultCause ∧ t.errcode = s.errcode ∧ SameBuffers s t ∧ t.wire = s.wire ∧
        SameEnvironment s t)) ∧
  IllegalUnder 0xA 0x07FFFFFF

/-- 42_transfer.md R160: EMIT puts the wire bytes of FB[CUR_BUF][XFER_PTR] on the link, big-endian, and counts the
pixel; they are the bytes SPLIT565 or SPLIT666 gives for the same pixel, the first in the highest used byte of RESULT.
The buffer is engine-owned in every reachable SUBMITTED state (10_state.md R30). -/
def Obligations.EmitEvent : Prop :=
  ∀ s : State, s.engState = .submitted → s.own s.curBuf = .engine → s.xferPtr < s.params.cap →
    ∃ t, moveStep .emit s = .next t ∧
      (s.params.format = .rgb565 → t.wire = s.wire ++
          [(s.pixelAt s.curBuf s.xferPtr).extractLsb' 8 8,
            (s.pixelAt s.curBuf s.xferPtr).extractLsb' 0 8] ∧
        ∃ u, exec (.split565 ((s.pixelAt s.curBuf s.xferPtr).extractLsb' 0 16)) s = .next u ∧
          t.wire = s.wire ++ [u.result.extractLsb' 8 8, u.result.extractLsb' 0 8]) ∧
      (s.params.format = .rgb666 → t.wire = s.wire ++
          [(s.pixelAt s.curBuf s.xferPtr).extractLsb' 12 6 ++ 0#2,
            (s.pixelAt s.curBuf s.xferPtr).extractLsb' 6 6 ++ 0#2,
            (s.pixelAt s.curBuf s.xferPtr).extractLsb' 0 6 ++ 0#2] ∧
        ∃ u, exec (.split666 (s.pixelAt s.curBuf s.xferPtr)) s = .next u ∧
          t.wire = s.wire ++
            [u.result.extractLsb' 16 8, u.result.extractLsb' 8 8, u.result.extractLsb' 0 8]) ∧
      t.xferPtr = s.xferPtr + 1 ∧ t.engState = s.engState ∧ t.curBuf = s.curBuf ∧
      t.faultCause = s.faultCause ∧ (∀ k, t.own k = s.own k) ∧ SameResult s t ∧
      t.errcode = s.errcode ∧ t.pending = s.pending ∧ SameBuffers s t ∧ SameEnvironment s t

/-- 42_transfer.md R161 and R162: DONE after the last pixel enters COMPLETING; XERR at any time enters FAULT with
cause TRANSFER and leaves the buffer with the engine. Neither changes anything else. -/
def Obligations.DoneAndXerrEvents : Prop :=
  ∀ s : State, s.engState = .submitted →
    (s.xferPtr = s.params.cap →
      ∃ t, moveStep .done s = .next t ∧ t.engState = .completing ∧ t.faultCause = s.faultCause ∧
        t.curBuf = s.curBuf ∧ t.xferPtr = s.xferPtr ∧ (∀ k, t.own k = s.own k) ∧ SameResult s t ∧
        t.errcode = s.errcode ∧ t.pending = s.pending ∧ SameBuffers s t ∧ t.wire = s.wire ∧
        SameEnvironment s t) ∧
    (∃ t, moveStep .xerr s = .next t ∧ t.engState = .fault ∧ t.faultCause = .transfer ∧
      t.curBuf = s.curBuf ∧ t.xferPtr = s.xferPtr ∧ (∀ k, t.own k = s.own k) ∧ SameResult s t ∧
      t.errcode = s.errcode ∧ t.pending = s.pending ∧ SameBuffers s t ∧ t.wire = s.wire ∧
      SameEnvironment s t)

/-- 42_transfer.md R158: an event that is not enabled is no step: it changes nothing. (That a scheduled event that is
not enabled passes without effect, rather than stopping the run, is the model's choice, log 7.) -/
def Obligations.DisabledEventsChangeNothing : Prop :=
  ∀ s : State,
    (s.engState ≠ .submitted ∨ s.params.cap ≤ s.xferPtr → moveStep .emit s = .next s) ∧
    (s.engState ≠ .submitted ∨ s.xferPtr ≠ s.params.cap → moveStep .done s = .next s) ∧
    (s.engState ≠ .submitted → moveStep .xerr s = .next s)

/-- 60_exceptions.md R187: a WAIT issued just before DONE holds and then retires; both orders give the same end state
(where no reset comes right after). -/
def Obligations.WaitBeforeDoneAgreesWithAfter : Prop :=
  ∀ (s : State) (ready : Bool) (rest : List Move), s.engState = .submitted → s.xferPtr = s.params.cap →
    s.CurBufExists → s.pending = none → ({ s with schedule := rest } : State).nextMove ≠ .reset →
    ∃ t, ({ s with schedule := .host (encode (.wait s.curBuf)) ready :: .done :: rest } : State).after 3 = t ∧
      ({ s with schedule := .done :: .host (encode (.wait s.curBuf)) ready :: rest } : State).after 2 = t ∧
      t.engState = .idle ∧ t.pending = none ∧ t.own s.curBuf = .producer ∧
      t.result.toNat = s.curBuf.toNat ∧ t.resultKind = .handle ∧ t.schedule = rest

/-- 42_transfer.md R151: a WAIT on CUR_BUF in SUBMITTED holds: it stays in PENDING and the HOST takes no step. After
another agent's step it is evaluated again, before any further step but a reset: EMIT does not lift the hold; after DONE
it retires with its effect; after XERR it retires as FAULTED; RESET empties PENDING. (Where a reset comes right after,
log 16, the statement says nothing.) -/
def Obligations.HeldWaitIsEvaluatedAgain : Prop :=
  ∀ s : State, s.CurBufExists → s.engState = .submitted → s.pending = some (encode (.wait s.curBuf)) →
    exec (.wait s.curBuf) s = .next s ∧
    (∀ w ready, s.nextMove = .host w ready → step s = .next s.advance) ∧
    (∀ t, s.nextMove = .emit → step s = .next t →
      t.engState = .submitted ∧ t.curBuf = s.curBuf ∧ t.pending = s.pending ∧
        exec (.wait t.curBuf) t = .next t) ∧
    (s.nextMove = .done → s.xferPtr = s.params.cap →
      ∃ t, step s = .next t ∧ t.engState = .completing ∧ t.curBuf = s.curBuf ∧ t.pending = s.pending ∧
        (t.nextMove ≠ .reset → step t = exec (.wait s.curBuf) t ∧
          ∃ u, step t = .next u ∧ u.pending = none ∧ u.engState = .idle ∧ u.own s.curBuf = .producer ∧
            u.result.toNat = s.curBuf.toNat ∧ u.resultKind = .handle)) ∧
    (s.nextMove = .xerr →
      ∃ t, step s = .next t ∧ t.engState = .fault ∧ t.curBuf = s.curBuf ∧ t.pending = s.pending ∧
        (t.nextMove ≠ .reset → step t = exec (.wait s.curBuf) t ∧ Rejected (step t) .faulted t)) ∧
    (s.nextMove = .reset → ∃ t, step s = .next t ∧ t.pending = none)

/-! ### Control commands -/

/-- 43_control.md R170: NOP, in every state. -/
def Obligations.NopCommand : Prop :=
  (∀ s : State, evalWord 0x00000000 s = exec .nop s ∧
    ∃ t, exec .nop s = .next t ∧ SameResult s t ∧ OnlyResult s t) ∧
  IllegalUnder 0x0 0x0FFFFFFF

/-- 43_control.md R172: STATUS, every field of the word by its numeric code, in every state. -/
def Obligations.StatusCommand : Prop :=
  (∀ s : State, evalWord 0xB0000000 s = exec .status s ∧
    ∃ t, exec .status s = .next t ∧ t.resultKind = .status ∧ OnlyResult s t ∧
      (t.result.extractLsb' 0 2).toNat =
        (match s.engState with | .idle => 0 | .submitted => 1 | .completing => 2 | .fault => 3) ∧
      t.result.extractLsb' 2 1 = s.curBuf ∧
      (t.result.extractLsb' 4 1).toNat = (if s.own 0 = .engine then 1 else 0) ∧
      (t.result.extractLsb' 5 1).toNat =
        (if s.params.nbuf = .two ∧ s.own 1 = .engine then 1 else 0) ∧
      (t.result.extractLsb' 8 4).toNat =
        (match s.errcode with
          | .none => 0 | .illegal => 1 | .bufidx => 2 | .bounds => 3 | .ownership => 4
          | .kind => 5 | .busy => 6 | .noxfer => 7 | .faulted => 8) ∧
      (t.result.extractLsb' 12 2).toNat =
        (match s.faultCause with | .none => 0 | .transfer => 1 | .config => 2) ∧
      (t.result.extractLsb' 15 1).toNat = (if s.params.format = .rgb666 then 1 else 0) ∧
      (t.result.extractLsb' 16 1).toNat = (if s.params.nbuf = .two then 1 else 0) ∧
      t.result.extractLsb' 3 1 = 0 ∧ t.result.extractLsb' 6 2 = 0 ∧
      t.result.extractLsb' 14 1 = 0 ∧ t.result.extractLsb' 17 15 = 0) ∧
  IllegalUnder 0xB 0x0FFFFFFF

/-- 43_control.md R174: ERRCLR clears ERRCODE and nothing else, in every state; an illegal ERRCLR word sets ERRCODE to
ILLEGAL. -/
def Obligations.ErrclrCommand : Prop :=
  (∀ s : State, evalWord 0xC0000000 s = exec .errclr s ∧
    ∃ t, exec .errclr s = .next t ∧ OnlyErrcode .none s t) ∧
  IllegalUnder 0xC 0x0FFFFFFF

/-! ### Reset -/

/-- 70_reset_and_hazards.md R200: RESET, from any state, gives every piece of state its reset value and leaves WIRE and
the parameters unchanged; the environment's own fields are no state of the block. -/
def Obligations.ResetStepValues : Prop :=
  ∀ s : State, ∃ t, moveStep .reset s = .next t ∧ t.engState = .idle ∧
    (∀ k, t.own k = .producer) ∧ (∀ k o, t.pixelAt k o = s.params.sentinel) ∧ t.curBuf = 0 ∧
    t.xferPtr = 0 ∧ t.faultCause = .none ∧ t.errcode = .none ∧ t.result = 0 ∧
    t.resultKind = .none ∧ t.pending = none ∧ t.wire = s.wire ∧ SameEnvironment s t

/-- 70_reset_and_hazards.md R201: the first state of a run is what RESET gives, with WIRE empty; and it meets the
invariant, for every parameter choice of 00_scope.md R9, the one of `State.reset` (logs 2, 3) among them. -/
def Obligations.PowerUpMeetsInvariant : Prop :=
  (∀ p : Params, p.wf = true → (State.powerUp p).Inv ∧ (State.powerUp p).wire = [] ∧
    ∀ s : State, s.params = p → s.wire = [] →
      resetStep s = { State.powerUp p with
        xportReady := s.xportReady, schedule := s.schedule, drawn := s.drawn }) ∧
  State.reset.Inv

/-! ### The whole machine -/

/-- The invariant of every reachable state is kept by every step, whatever agent makes it: the parameters stay in range,
ownership is as 10_state.md R30 says, FAULT_CAUSE as R28, RESULT as R22, both buffers in canonical form with elements
of PIXEL_BITS bits, and nothing but a WAIT on CUR_BUF is left in PENDING (R24; log 6). -/
def Obligations.StepKeepsInvariant : Prop :=
  ∀ s t : State, s.Inv → step s = .next t → t.Inv

/-- 10_state.md R30: the ownership invariant holds at power-up and every step keeps it; and what follows from it: at
most one buffer is engine-owned, in IDLE every buffer is the producer's, and with NBUF = 1 the HOST has no writable
buffer while a transfer is in flight. -/
def Obligations.OwnershipInvariant : Prop :=
  (∀ p : Params, (State.powerUp p).OwnershipInv) ∧
  (∀ s t : State, s.OwnershipInv → step s = .next t → t.OwnershipInv) ∧
  (∀ s : State, s.OwnershipInv →
    (∀ j k : BufIdx, j.toNat < s.params.nbuf.count → k.toNat < s.params.nbuf.count →
      s.own j = .engine → s.own k = .engine → j = k) ∧
    (s.engState = .idle → ∀ k : BufIdx, k.toNat < s.params.nbuf.count → s.own k = .producer) ∧
    (s.params.nbuf = .one → s.CurBufExists → s.engState = .submitted ∨ s.engState = .completing →
      ∀ k : BufIdx, k.toNat < s.params.nbuf.count → s.own k = .engine))

/-- No command stops the machine in any state, and no step stops it in a reachable one. -/
def Obligations.NothingStops : Prop :=
  (∀ (i : Instr) (s : State), ∃ t, exec i s = .next t) ∧
  (∀ s : State, s.Inv → ∃ t, step s = .next t)

/-- 42_transfer.md R140: ENG_STATE moves only by the transitions of the table, under their conditions and with their
other effects. -/
def Obligations.EngineMovesOnlyByTable : Prop :=
  ∀ s t : State, s.PendingInv → step s = .next t → t.engState ≠ s.engState →
    (∃ k w, s.engState = .idle ∧ t.engState = .submitted ∧ s.nextMove = .host w true ∧
      s.pending = none ∧ decode w = .command (.submit k) ∧ k.toNat < s.params.nbuf.count ∧
      t.own k = .engine ∧ t.curBuf = k ∧ t.xferPtr = 0 ∧ t.result.toNat = k.toNat) ∨
    (∃ k w, s.engState = .idle ∧ t.engState = .fault ∧ s.nextMove = .host w false ∧
      s.pending = none ∧ decode w = .command (.submit k) ∧ k.toNat < s.params.nbuf.count ∧
      t.faultCause = .config ∧ t.errcode = .faulted) ∨
    (s.engState = .submitted ∧ t.engState = .completing ∧ s.nextMove = .done ∧
      s.xferPtr = s.params.cap) ∨
    (s.engState = .submitted ∧ t.engState = .fault ∧ s.nextMove = .xerr ∧
      t.faultCause = .transfer) ∨
    (s.engState = .completing ∧ t.engState = .idle ∧ s.Evaluates (.wait s.curBuf) ∧
      t.own s.curBuf = .producer ∧ t.result.toNat = s.curBuf.toNat) ∨
    (t.engState = .idle ∧ s.nextMove = .reset)

/-- 10_state.md R29: only SUBMIT changes an owner from PRODUCER to ENGINE; only WAIT from COMPLETING, or reset, changes
one back. -/
def Obligations.OwnersChangeOnlyAtHandOff : Prop :=
  ∀ (s t : State) (k : BufIdx), step s = .next t →
    (s.own k = .producer → t.own k = .engine → s.engState = .idle ∧ s.Evaluates (.submit k)) ∧
    (s.own k = .engine → t.own k = .producer →
      (s.engState = .completing ∧ s.Evaluates (.wait k)) ∨ s.nextMove = .reset)

/-- 10_state.md R25: ERRCODE is written by a rejected command, by ERRCLR and a ConfigurationFault, and by reset. A step
that changes it is the HOST's or a reset; a HOST step that leaves ERRCODE nonzero and changed has rejected its command
or entered FAULT, and changed neither RESULT nor a buffer nor an owner. -/
def Obligations.ErrcodeRecordsRejections : Prop :=
  ∀ s t : State, step s = .next t → t.errcode ≠ s.errcode →
    s.nextMove = .reset ∨
    (t.errcode = .none ∧ s.Evaluates .errclr) ∨
    ((∃ w, s.EvaluatesWord w) ∧ t.errcode ≠ .none ∧ t.pending = none ∧
      SameResult s t ∧ SameBuffers s t ∧ (∀ k, t.own k = s.own k))

/-- 10_state.md R27 and R28: CUR_BUF is written only by a SUBMIT that hands over (and by reset); FAULT_CAUSE, once set,
is cleared only by reset. -/
def Obligations.CurBufAndCausePersist : Prop :=
  ∀ s t : State, step s = .next t → s.nextMove ≠ .reset →
    (t.curBuf ≠ s.curBuf → s.Evaluates (.submit t.curBuf) ∧ t.engState = .submitted) ∧
    (s.CauseInv → s.faultCause ≠ .none → t.faultCause = s.faultCause)

/-- 10_state.md R34: WIRE only grows, only by EMIT, by the WIRE_BYTES bytes of one pixel; reset does not empty it. -/
def Obligations.WireGrowsOnlyByEmit : Prop :=
  ∀ s t : State, step s = .next t →
    t.wire = s.wire ∨
    (s.nextMove = .emit ∧ s.engState = .submitted ∧
      ∃ bs : List Byte, t.wire = s.wire ++ bs ∧ bs.length = s.params.wireBytes)

/-- 60_exceptions.md R184: FAULT is fatal. From FAULT every step but RESET stays in FAULT with the same cause, owners,
CUR_BUF, XFER_PTR and wire. -/
def Obligations.FaultIsLeftOnlyByReset : Prop :=
  ∀ s t : State, s.engState = .fault → step s = .next t → s.nextMove ≠ .reset →
    t.engState = .fault ∧ t.faultCause = s.faultCause ∧ (∀ k, t.own k = s.own k) ∧
    t.curBuf = s.curBuf ∧ t.xferPtr = s.xferPtr ∧ t.wire = s.wire

/-- 00_scope.md R9: none of the parameters changes while the block runs. -/
def Obligations.ParametersNeverChange : Prop :=
  ∀ (s : State) (n : Nat), (s.after n).params = s.params

/-- 10_state.md R24: the one-deep command slot. With PENDING empty, a word stays in PENDING only when the HOST issues it
and it is a WAIT that holds; every other command retires in the step that issues it. With a command pending, the HOST
issues nothing: a WAIT that holds stays as it is, and a command leaves PENDING only by its own retirement or a reset. (That a word is
evaluated in the step that issues it is the model's reading, log 6.) -/
def Obligations.PendingIsOneDeep : Prop :=
  ∀ s t : State, step s = .next t →
    (s.pending = none → t.pending = none ∨
      ∃ w ready, s.nextMove = .host w ready ∧ t.pending = some w ∧ decode w = .command (.wait s.curBuf) ∧
        s.engState = .submitted) ∧
    (∀ w, s.pending = some w →
      (t.pending = some w ∧ decode w = .command (.wait s.curBuf) ∧ s.engState = .submitted ∧
        ((∃ v ready, s.nextMove = .host v ready) → t = s.advance)) ∨
      (t.pending = none ∧ (s.nextMove = .reset ∨ evalWord w s = .next t)))

/-! ### Transfers -/

/-- 20_memory.md R65: the pixels on the wire for one transfer are the contents of the buffer at the moment of SUBMIT.
From a state just handed over, whatever the agents do, as long as the transfer is in flight the wire has grown by
exactly the wire bytes of the first XFER_PTR elements of the submitted buffer, in offset order, as they were. -/
def Obligations.WireCarriesSubmittedFrame : Prop :=
  ∀ (s : State) (n : Nat), s.Inv → s.xferPtr = 0 →
    (∀ m, m ≤ n → (s.after m).engState = .submitted) →
    (s.after n).curBuf = s.curBuf ∧
    (s.after n).wire = s.wire ++ s.frameBytes s.curBuf (s.after n).xferPtr ∧
    ∀ o, (s.after n).pixelAt s.curBuf o = s.pixelAt s.curBuf o

/-- 42_transfer.md R157: if SUBMIT k retires with its effect and the engine next returns to IDLE by a WAIT that
retires with its effect, whatever the agents do in between, that WAIT returns k, the buffer is the producer's again
and element for element what it was at the SUBMIT; and the wire has grown by exactly its CAP pixels. -/
def Obligations.SubmitThenWaitReturnsBuffer : Prop :=
  ∀ (s : State) (k : BufIdx) (n : Nat), s.Inv → s.engState = .idle → s.Evaluates (.submit k) → 1 ≤ n →
    (s.after 1).engState = .submitted →
    (∀ m, 1 ≤ m → m ≤ n → (s.after m).engState = .submitted ∨ (s.after m).engState = .completing) →
    (s.after n).nextMove ≠ .reset → (s.after (n + 1)).engState = .idle →
    (s.after n).Evaluates (.wait k) ∧ (s.after (n + 1)).result.toNat = k.toNat ∧
    (s.after (n + 1)).resultKind = .handle ∧ (s.after (n + 1)).own k = .producer ∧
    (∀ o, (s.after (n + 1)).pixelAt k o = s.pixelAt k o) ∧
    (s.after (n + 1)).wire = s.wire ++ s.frameBytes k s.params.cap

/-- A synchronous transfer (the pseudo-instruction XFER of 30_encoding.md R88) completes: SUBMIT, a WAIT issued at once
that holds through CAP EMITs and DONE, and its retirement return the handle and the buffer, with the whole frame on the
wire and nothing else changed. -/
def Obligations.SynchronousTransferCompletes : Prop :=
  ∀ (s : State) (k : BufIdx) (ready : Bool) (rest : List Move), s.Inv → s.engState = .idle →
    k.toNat < s.params.nbuf.count →
    s.schedule = .host (encode (.submit k)) true :: .host (encode (.wait k)) ready ::
      (List.replicate s.params.cap .emit ++ .done :: rest) →
    ({ s with schedule := rest } : State).nextMove ≠ .reset →
    ∃ t, s.after (s.params.cap + 4) = t ∧ t.engState = .idle ∧ (∀ j, t.own j = s.own j) ∧
      t.curBuf = k ∧ t.faultCause = s.faultCause ∧ t.xferPtr = s.params.cap ∧
      t.result.toNat = k.toNat ∧ t.resultKind = .handle ∧ t.pending = none ∧ SameBuffers s t ∧
      t.wire = s.wire ++ s.frameBytes k s.params.cap ∧ t.errcode = s.errcode ∧ t.schedule = rest

/-- 42_transfer.md R163: under TRANSPORT_LIVE, the only progress assumption (70_reset_and_hazards.md R212), a held WAIT
eventually retires: by the reclaim, FAULTED, or dropped by a reset. TRANSPORT_LIVE is asked only while the WAIT is
pending, which is less than R163 asks. -/
def Obligations.HeldWaitRetiresWhenTransportLive : Prop :=
  ∀ s : State, s.Inv → s.engState = .submitted → s.pending = some (encode (.wait s.curBuf)) →
    s.TransportLive →
    ∃ n, (∀ m, m ≤ n → (s.after m).pending = s.pending) ∧ (s.after (n + 1)).pending = none ∧
      ((s.after n).nextMove = .reset ∨ (s.after n).engState = .completing ∨
        (s.after n).engState = .fault)

/-- 70_reset_and_hazards.md R209: a transport that takes no step hangs the HOST at its WAIT: whatever words the HOST would
issue, nothing of the block changes. -/
def Obligations.SilentTransportHoldsWaitForever : Prop :=
  ∀ (s : State) (ms rest : List Move), s.engState = .submitted →
    s.CurBufExists → s.pending = some (encode (.wait s.curBuf)) →
    (∀ m ∈ ms, ∃ w ready, m = .host w ready) → s.schedule = ms ++ rest →
    s.after ms.length = { s with schedule := rest }
end

