-- ==== Sys2Proof/Laws/Encoding.lean ====
section
/-! SUPPORT. The fields of each format's word (30_encoding.md R72 to R79): what the decoder's field functions read from
the encoder's words. -/

namespace Sys2Proof

/-! ### Format P -/

@[simp] theorem opField_wordP (op : BitVec 4) (r g b : Byte) : opField (wordP op r g b) = op := by
  unfold opField wordP
  ext i h
  simp only [BitVec.getElem_extractLsb', BitVec.getLsbD_append]
  rw [← BitVec.getLsbD_eq_getElem]
  (repeat' split) <;> first | omega | (congr 1; omega)

@[simp] theorem fieldR_wordP (op : BitVec 4) (r g b : Byte) : fieldR (wordP op r g b) = r := by
  unfold fieldR wordP
  ext i h
  simp only [BitVec.getElem_extractLsb', BitVec.getLsbD_append]
  rw [← BitVec.getLsbD_eq_getElem]
  (repeat' split) <;> first | omega | (congr 1; omega)

@[simp] theorem fieldG_wordP (op : BitVec 4) (r g b : Byte) : fieldG (wordP op r g b) = g := by
  unfold fieldG wordP
  ext i h
  simp only [BitVec.getElem_extractLsb', BitVec.getLsbD_append]
  rw [← BitVec.getLsbD_eq_getElem]
  (repeat' split) <;> first | omega | (congr 1; omega)

@[simp] theorem fieldB_wordP (op : BitVec 4) (r g b : Byte) : fieldB (wordP op r g b) = b := by
  unfold fieldB wordP
  ext i h
  simp only [BitVec.getElem_extractLsb', BitVec.getLsbD_append]
  rw [← BitVec.getLsbD_eq_getElem]
  (repeat' split) <;> first | omega | (congr 1; omega)

@[simp] theorem reservedBits_wordP (op : BitVec 4) (r g b : Byte) : reservedBits .P (wordP op r g b) = 0 := by
  have h0 : (wordP op r g b).extractLsb' 24 4 = 0 := by
    unfold wordP
    ext i h
    simp only [BitVec.getElem_extractLsb', BitVec.getLsbD_append]
    (repeat' split) <;> first | omega | simp
  rw [reservedBits, h0]; rfl

/-! ### Format S16 -/

@[simp] theorem opField_wordS16 (op : BitVec 4) (p : BitVec 16) : opField (wordS16 op p) = op := by
  unfold opField wordS16
  ext i h
  simp only [BitVec.getElem_extractLsb', BitVec.getLsbD_append]
  rw [← BitVec.getLsbD_eq_getElem]
  (repeat' split) <;> first | omega | (congr 1; omega)

@[simp] theorem fieldP16_wordS16 (op : BitVec 4) (p : BitVec 16) : fieldP16 (wordS16 op p) = p := by
  unfold fieldP16 wordS16
  ext i h
  simp only [BitVec.getElem_extractLsb', BitVec.getLsbD_append]
  rw [← BitVec.getLsbD_eq_getElem]
  (repeat' split) <;> first | omega | (congr 1; omega)

@[simp] theorem reservedBits_wordS16 (op : BitVec 4) (p : BitVec 16) : reservedBits .S16 (wordS16 op p) = 0 := by
  have h0 : (wordS16 op p).extractLsb' 16 12 = 0 := by
    unfold wordS16
    ext i h
    simp only [BitVec.getElem_extractLsb', BitVec.getLsbD_append]
    (repeat' split) <;> first | omega | simp
  rw [reservedBits, h0]; rfl

/-! ### Format S18 -/

@[simp] theorem opField_wordS18 (op : BitVec 4) (p : BitVec 18) : opField (wordS18 op p) = op := by
  unfold opField wordS18
  ext i h
  simp only [BitVec.getElem_extractLsb', BitVec.getLsbD_append]
  rw [← BitVec.getLsbD_eq_getElem]
  (repeat' split) <;> first | omega | (congr 1; omega)

@[simp] theorem fieldP18_wordS18 (op : BitVec 4) (p : BitVec 18) : fieldP18 (wordS18 op p) = p := by
  unfold fieldP18 wordS18
  ext i h
  simp only [BitVec.getElem_extractLsb', BitVec.getLsbD_append]
  rw [← BitVec.getLsbD_eq_getElem]
  (repeat' split) <;> first | omega | (congr 1; omega)

@[simp] theorem reservedBits_wordS18 (op : BitVec 4) (p : BitVec 18) : reservedBits .S18 (wordS18 op p) = 0 := by
  have h0 : (wordS18 op p).extractLsb' 18 10 = 0 := by
    unfold wordS18
    ext i h
    simp only [BitVec.getElem_extractLsb', BitVec.getLsbD_append]
    (repeat' split) <;> first | omega | simp
  rw [reservedBits, h0]; rfl

/-! ### Format M -/

@[simp] theorem opField_wordM (op : BitVec 4) (k : BufIdx) (o : BitVec 16) : opField (wordM op k o) = op := by
  unfold opField wordM
  ext i h
  simp only [BitVec.getElem_extractLsb', BitVec.getLsbD_append]
  rw [← BitVec.getLsbD_eq_getElem]
  (repeat' split) <;> first | omega | (congr 1; omega)

@[simp] theorem fieldK_wordM (op : BitVec 4) (k : BufIdx) (o : BitVec 16) : fieldK (wordM op k o) = k := by
  unfold fieldK wordM
  ext i h
  simp only [BitVec.getElem_extractLsb', BitVec.getLsbD_append]
  rw [← BitVec.getLsbD_eq_getElem]
  (repeat' split) <;> first | omega | (congr 1; omega)

@[simp] theorem fieldO_wordM (op : BitVec 4) (k : BufIdx) (o : BitVec 16) : fieldO (wordM op k o) = o := by
  unfold fieldO wordM
  ext i h
  simp only [BitVec.getElem_extractLsb', BitVec.getLsbD_append]
  rw [← BitVec.getLsbD_eq_getElem]
  (repeat' split) <;> first | omega | (congr 1; omega)

@[simp] theorem reservedBits_wordM (op : BitVec 4) (k : BufIdx) (o : BitVec 16) : reservedBits .M (wordM op k o) = 0 := by
  have h0 : (wordM op k o).extractLsb' 16 11 = 0 := by
    unfold wordM
    ext i h
    simp only [BitVec.getElem_extractLsb', BitVec.getLsbD_append]
    (repeat' split) <;> first | omega | simp
  rw [reservedBits, h0]; rfl

/-! ### Format X -/

@[simp] theorem opField_wordX (op : BitVec 4) (k : BufIdx) (x y : BitVec 8) : opField (wordX op k x y) = op := by
  unfold opField wordX
  ext i h
  simp only [BitVec.getElem_extractLsb', BitVec.getLsbD_append]
  rw [← BitVec.getLsbD_eq_getElem]
  (repeat' split) <;> first | omega | (congr 1; omega)

@[simp] theorem fieldK_wordX (op : BitVec 4) (k : BufIdx) (x y : BitVec 8) : fieldK (wordX op k x y) = k := by
  unfold fieldK wordX
  ext i h
  simp only [BitVec.getElem_extractLsb', BitVec.getLsbD_append]
  rw [← BitVec.getLsbD_eq_getElem]
  (repeat' split) <;> first | omega | (congr 1; omega)

@[simp] theorem fieldX_wordX (op : BitVec 4) (k : BufIdx) (x y : BitVec 8) : fieldX (wordX op k x y) = x := by
  unfold fieldX wordX
  ext i h
  simp only [BitVec.getElem_extractLsb', BitVec.getLsbD_append]
  rw [← BitVec.getLsbD_eq_getElem]
  (repeat' split) <;> first | omega | (congr 1; omega)

@[simp] theorem fieldY_wordX (op : BitVec 4) (k : BufIdx) (x y : BitVec 8) : fieldY (wordX op k x y) = y := by
  unfold fieldY wordX
  ext i h
  simp only [BitVec.getElem_extractLsb', BitVec.getLsbD_append]
  rw [← BitVec.getLsbD_eq_getElem]
  (repeat' split) <;> first | omega | (congr 1; omega)

@[simp] theorem reservedBits_wordX (op : BitVec 4) (k : BufIdx) (x y : BitVec 8) : reservedBits .X (wordX op k x y) = 0 := by
  have h0 : (wordX op k x y).extractLsb' 16 11 = 0 := by
    unfold wordX
    ext i h
    simp only [BitVec.getElem_extractLsb', BitVec.getLsbD_append]
    (repeat' split) <;> first | omega | simp
  rw [reservedBits, h0]; rfl

/-! ### Format T -/

@[simp] theorem opField_wordT (op : BitVec 4) (k : BufIdx) : opField (wordT op k) = op := by
  unfold opField wordT
  ext i h
  simp only [BitVec.getElem_extractLsb', BitVec.getLsbD_append]
  rw [← BitVec.getLsbD_eq_getElem]
  (repeat' split) <;> first | omega | (congr 1; omega)

@[simp] theorem fieldK_wordT (op : BitVec 4) (k : BufIdx) : fieldK (wordT op k) = k := by
  unfold fieldK wordT
  ext i h
  simp only [BitVec.getElem_extractLsb', BitVec.getLsbD_append]
  rw [← BitVec.getLsbD_eq_getElem]
  (repeat' split) <;> first | omega | (congr 1; omega)

@[simp] theorem reservedBits_wordT (op : BitVec 4) (k : BufIdx) : reservedBits .T (wordT op k) = 0 := by
  have h0 : (wordT op k).extractLsb' 0 27 = 0 := by
    unfold wordT
    ext i h
    simp only [BitVec.getElem_extractLsb', BitVec.getLsbD_append]
    (repeat' split) <;> first | omega | simp
  rw [reservedBits, h0]; rfl

/-! ### Format N -/

@[simp] theorem opField_wordN (op : BitVec 4) : opField (wordN op) = op := by
  unfold opField wordN
  ext i h
  simp only [BitVec.getElem_extractLsb', BitVec.getLsbD_append]
  rw [← BitVec.getLsbD_eq_getElem]
  (repeat' split) <;> first | omega | (congr 1; omega)

@[simp] theorem reservedBits_wordN (op : BitVec 4) : reservedBits .N (wordN op) = 0 := by
  have h0 : (wordN op).extractLsb' 0 28 = 0 := by
    unfold wordN
    ext i h
    simp only [BitVec.getElem_extractLsb', BitVec.getLsbD_append]
    (repeat' split) <;> first | omega | simp
  rw [reservedBits, h0]; rfl

/-! ### From a word's fields back to the word -/

/-- A zero bit field of a word has zero bits. -/
theorem reserved_bit_zero {w : Word} {lo n : Nat} (h : (w.extractLsb' lo n).toNat = 0) (i : Nat) (h1 : lo ≤ i) (hi : i < lo + n) :
   w.getLsbD i = false := by
  have : w.extractLsb' lo n = 0 := BitVec.eq_of_toNat_eq (by simpa using h)
  have h2 := congrArg (fun v => v.getLsbD (i-lo)) this
  have h3 : i - lo < n := by omega
  simp [h3] at h2
  rwa [show lo + (i - lo) = i by omega] at h2

/-- The opcode field, from its number. -/
theorem opField_of_toNat {w : Word} {n : Nat} (hn : (opField w).toNat = n) : opField w = BitVec.ofNat 4 n := by
  rw [← hn]; simp

/-- A word that decodes to a command has a zero reserved field. -/
theorem checkReserved_command {f w j i} (h : checkReserved f w j = .command i) : reservedBits f w = 0 ∧ j = i := by
  unfold checkReserved at h; split at h <;> simp_all

/-- A word whose reserved field is zero is its format's word of its own fields. -/
theorem wordP_of_fields {w : Word} (hr : reservedBits .P w = 0) : wordP (opField w) (fieldR w) (fieldG w) (fieldB w) = w := by
  apply BitVec.eq_of_getLsbD_eq
  intro i hi
  have hz := reserved_bit_zero hr i
  simp only [wordP, opField, fieldR, fieldG, fieldB, BitVec.getLsbD_append, BitVec.getLsbD_extractLsb']
  (repeat' split) <;> first
    | (rw [decide_eq_true (by omega), Bool.true_and]; congr 1; omega)
    | (rw [hz (by omega) (by omega)]; simp)
theorem wordS16_of_fields {w : Word} (hr : reservedBits .S16 w = 0) : wordS16 (opField w) (fieldP16 w)  = w := by
  apply BitVec.eq_of_getLsbD_eq
  intro i hi
  have hz := reserved_bit_zero hr i
  simp only [wordS16, opField, fieldP16, BitVec.getLsbD_append, BitVec.getLsbD_extractLsb']
  (repeat' split) <;> first
    | (rw [decide_eq_true (by omega), Bool.true_and]; congr 1; omega)
    | (rw [hz (by omega) (by omega)]; simp)
theorem wordS18_of_fields {w : Word} (hr : reservedBits .S18 w = 0) : wordS18 (opField w) (fieldP18 w)  = w := by
  apply BitVec.eq_of_getLsbD_eq
  intro i hi
  have hz := reserved_bit_zero hr i
  simp only [wordS18, opField, fieldP18, BitVec.getLsbD_append, BitVec.getLsbD_extractLsb']
  (repeat' split) <;> first
    | (rw [decide_eq_true (by omega), Bool.true_and]; congr 1; omega)
    | (rw [hz (by omega) (by omega)]; simp)
theorem wordM_of_fields {w : Word} (hr : reservedBits .M w = 0) : wordM (opField w) (fieldK w) (fieldO w) = w := by
  apply BitVec.eq_of_getLsbD_eq
  intro i hi
  have hz := reserved_bit_zero hr i
  simp only [wordM, opField, fieldK, fieldO, BitVec.getLsbD_append, BitVec.getLsbD_extractLsb']
  (repeat' split) <;> first
    | (rw [decide_eq_true (by omega), Bool.true_and]; congr 1; omega)
    | (rw [hz (by omega) (by omega)]; simp)
theorem wordX_of_fields {w : Word} (hr : reservedBits .X w = 0) : wordX (opField w) (fieldK w) (fieldX w) (fieldY w) = w := by
  apply BitVec.eq_of_getLsbD_eq
  intro i hi
  have hz := reserved_bit_zero hr i
  simp only [wordX, opField, fieldK, fieldX, fieldY, BitVec.getLsbD_append, BitVec.getLsbD_extractLsb']
  (repeat' split) <;> first
    | (rw [decide_eq_true (by omega), Bool.true_and]; congr 1; omega)
    | (rw [hz (by omega) (by omega)]; simp)
theorem wordT_of_fields {w : Word} (hr : reservedBits .T w = 0) : wordT (opField w) (fieldK w) = w := by
  apply BitVec.eq_of_getLsbD_eq
  intro i hi
  have hz := reserved_bit_zero hr i
  simp only [wordT, opField, fieldK, BitVec.getLsbD_append, BitVec.getLsbD_extractLsb']
  (repeat' split) <;> first
    | (rw [decide_eq_true (by omega), Bool.true_and]; congr 1; omega)
    | (rw [hz (by omega) (by omega)]; simp)
theorem wordN_of_fields {w : Word} (hr : reservedBits .N w = 0) : wordN (opField w) = w := by
  apply BitVec.eq_of_getLsbD_eq
  intro i hi
  have hz := reserved_bit_zero hr i
  simp only [wordN, opField, BitVec.getLsbD_append, BitVec.getLsbD_extractLsb']
  (repeat' split) <;> first
    | (rw [decide_eq_true (by omega), Bool.true_and]; congr 1; omega)
    | (rw [hz (by omega) (by omega)]; simp)

/-! ### The reserved fields as masks of spec/opcode_table.json -/

/-- A mask that covers exactly one bit field tests that field. -/
theorem and_mask_eq_zero {w mask : Word} {lo n : Nat} (hln : lo + n ≤ 32)
    (hm : ∀ i : Fin 32, mask.getLsbD i = decide (lo ≤ i.val ∧ i.val < lo + n)) :
    w &&& mask = 0 ↔ (w.extractLsb' lo n).toNat = 0 := by
  constructor
  · intro h
    have : w.extractLsb' lo n = 0 := by
      apply BitVec.eq_of_getLsbD_eq
      intro i hi
      have h2 := congrArg (fun v => v.getLsbD (lo + i)) h
      have h3 := hm ⟨lo + i, by omega⟩
      simp at h2 h3
      simp only [BitVec.getLsbD_extractLsb']
      cases hb : w.getLsbD (lo+i)
      · simp
      · simp_all 
    rw [this]; rfl
  · intro h
    apply BitVec.eq_of_getLsbD_eq
    intro i hi
    have h3 := hm ⟨i, hi⟩
    simp only [BitVec.getLsbD_and, h3]
    by_cases hin : lo ≤ i ∧ i < lo + n
    · rw [reserved_bit_zero h i hin.1 hin.2]; simp
    · simp [hin]

theorem mask_N {w : Word} : w &&& 0x0FFFFFFF = 0 ↔ reservedBits .N w = 0 := and_mask_eq_zero (by omega) (by decide)
theorem mask_P {w : Word} : w &&& 0x0F000000 = 0 ↔ reservedBits .P w = 0 := and_mask_eq_zero (by omega) (by decide)
theorem mask_S16 {w : Word} : w &&& 0x0FFF0000 = 0 ↔ reservedBits .S16 w = 0 := and_mask_eq_zero (by omega) (by decide)
theorem mask_S18 {w : Word} : w &&& 0x0FFC0000 = 0 ↔ reservedBits .S18 w = 0 := and_mask_eq_zero (by omega) (by decide)
theorem mask_M {w : Word} : w &&& 0x07FF0000 = 0 ↔ reservedBits .M w = 0 := and_mask_eq_zero (by omega) (by decide)
theorem mask_X {w : Word} : w &&& 0x07FF0000 = 0 ↔ reservedBits .X w = 0 := and_mask_eq_zero (by omega) (by decide)
theorem mask_T {w : Word} : w &&& 0x07FFFFFF = 0 ↔ reservedBits .T w = 0 := and_mask_eq_zero (by omega) (by decide)

end Sys2Proof
end

