-- ==== Sys2Proof/Laws/State.lean ====
section
/-! SUPPORT. The field lemmas of the state's updates: one per field per update, so that no later proof unfolds an
update; then what the accessors of the two buffers read after each update. -/

namespace Sys2Proof.Machine

/-! ### `writeResult` -/

@[simp] theorem writeResult_result (v : Word) (kd : Kind) (s : State) : (writeResult v kd s).result = v := rfl
@[simp] theorem writeResult_resultKind (v : Word) (kd : Kind) (s : State) : (writeResult v kd s).resultKind = kd := rfl
@[simp] theorem writeResult_errcode (v : Word) (kd : Kind) (s : State) : (writeResult v kd s).errcode = s.errcode := rfl
@[simp] theorem writeResult_engState (v : Word) (kd : Kind) (s : State) : (writeResult v kd s).engState = s.engState := rfl
@[simp] theorem writeResult_curBuf (v : Word) (kd : Kind) (s : State) : (writeResult v kd s).curBuf = s.curBuf := rfl
@[simp] theorem writeResult_faultCause (v : Word) (kd : Kind) (s : State) : (writeResult v kd s).faultCause = s.faultCause := rfl
@[simp] theorem writeResult_own0 (v : Word) (kd : Kind) (s : State) : (writeResult v kd s).own0 = s.own0 := rfl
@[simp] theorem writeResult_own1 (v : Word) (kd : Kind) (s : State) : (writeResult v kd s).own1 = s.own1 := rfl
@[simp] theorem writeResult_xferPtr (v : Word) (kd : Kind) (s : State) : (writeResult v kd s).xferPtr = s.xferPtr := rfl
@[simp] theorem writeResult_fb0 (v : Word) (kd : Kind) (s : State) : (writeResult v kd s).fb0 = s.fb0 := rfl
@[simp] theorem writeResult_fb1 (v : Word) (kd : Kind) (s : State) : (writeResult v kd s).fb1 = s.fb1 := rfl
@[simp] theorem writeResult_pending (v : Word) (kd : Kind) (s : State) : (writeResult v kd s).pending = s.pending := rfl
@[simp] theorem writeResult_wire (v : Word) (kd : Kind) (s : State) : (writeResult v kd s).wire = s.wire := rfl
@[simp] theorem writeResult_params (v : Word) (kd : Kind) (s : State) : (writeResult v kd s).params = s.params := rfl
@[simp] theorem writeResult_xportReady (v : Word) (kd : Kind) (s : State) : (writeResult v kd s).xportReady = s.xportReady := rfl
@[simp] theorem writeResult_schedule (v : Word) (kd : Kind) (s : State) : (writeResult v kd s).schedule = s.schedule := rfl
@[simp] theorem writeResult_drawn (v : Word) (kd : Kind) (s : State) : (writeResult v kd s).drawn = s.drawn := rfl

/-! ### `retire` -/

@[simp] theorem retire_result (s : State) : (retire s).result = s.result := rfl
@[simp] theorem retire_resultKind (s : State) : (retire s).resultKind = s.resultKind := rfl
@[simp] theorem retire_errcode (s : State) : (retire s).errcode = s.errcode := rfl
@[simp] theorem retire_engState (s : State) : (retire s).engState = s.engState := rfl
@[simp] theorem retire_curBuf (s : State) : (retire s).curBuf = s.curBuf := rfl
@[simp] theorem retire_faultCause (s : State) : (retire s).faultCause = s.faultCause := rfl
@[simp] theorem retire_own0 (s : State) : (retire s).own0 = s.own0 := rfl
@[simp] theorem retire_own1 (s : State) : (retire s).own1 = s.own1 := rfl
@[simp] theorem retire_xferPtr (s : State) : (retire s).xferPtr = s.xferPtr := rfl
@[simp] theorem retire_fb0 (s : State) : (retire s).fb0 = s.fb0 := rfl
@[simp] theorem retire_fb1 (s : State) : (retire s).fb1 = s.fb1 := rfl
@[simp] theorem retire_pending (s : State) : (retire s).pending = none := rfl
@[simp] theorem retire_wire (s : State) : (retire s).wire = s.wire := rfl
@[simp] theorem retire_params (s : State) : (retire s).params = s.params := rfl
@[simp] theorem retire_xportReady (s : State) : (retire s).xportReady = s.xportReady := rfl
@[simp] theorem retire_schedule (s : State) : (retire s).schedule = s.schedule := rfl
@[simp] theorem retire_drawn (s : State) : (retire s).drawn = s.drawn := rfl

/-! ### `enterFault` -/

@[simp] theorem enterFault_result (c : FaultCause) (s : State) : (enterFault c s).result = s.result := rfl
@[simp] theorem enterFault_resultKind (c : FaultCause) (s : State) : (enterFault c s).resultKind = s.resultKind := rfl
@[simp] theorem enterFault_errcode (c : FaultCause) (s : State) : (enterFault c s).errcode = s.errcode := rfl
@[simp] theorem enterFault_engState (c : FaultCause) (s : State) : (enterFault c s).engState = .fault := rfl
@[simp] theorem enterFault_curBuf (c : FaultCause) (s : State) : (enterFault c s).curBuf = s.curBuf := rfl
@[simp] theorem enterFault_faultCause (c : FaultCause) (s : State) : (enterFault c s).faultCause = c := rfl
@[simp] theorem enterFault_own0 (c : FaultCause) (s : State) : (enterFault c s).own0 = s.own0 := rfl
@[simp] theorem enterFault_own1 (c : FaultCause) (s : State) : (enterFault c s).own1 = s.own1 := rfl
@[simp] theorem enterFault_xferPtr (c : FaultCause) (s : State) : (enterFault c s).xferPtr = s.xferPtr := rfl
@[simp] theorem enterFault_fb0 (c : FaultCause) (s : State) : (enterFault c s).fb0 = s.fb0 := rfl
@[simp] theorem enterFault_fb1 (c : FaultCause) (s : State) : (enterFault c s).fb1 = s.fb1 := rfl
@[simp] theorem enterFault_pending (c : FaultCause) (s : State) : (enterFault c s).pending = s.pending := rfl
@[simp] theorem enterFault_wire (c : FaultCause) (s : State) : (enterFault c s).wire = s.wire := rfl
@[simp] theorem enterFault_params (c : FaultCause) (s : State) : (enterFault c s).params = s.params := rfl
@[simp] theorem enterFault_xportReady (c : FaultCause) (s : State) : (enterFault c s).xportReady = s.xportReady := rfl
@[simp] theorem enterFault_schedule (c : FaultCause) (s : State) : (enterFault c s).schedule = s.schedule := rfl
@[simp] theorem enterFault_drawn (c : FaultCause) (s : State) : (enterFault c s).drawn = s.drawn := rfl

/-! ### `configFault` -/

@[simp] theorem configFault_result (s : State) : (configFault s).result = s.result := rfl
@[simp] theorem configFault_resultKind (s : State) : (configFault s).resultKind = s.resultKind := rfl
@[simp] theorem configFault_errcode (s : State) : (configFault s).errcode = .faulted := rfl
@[simp] theorem configFault_engState (s : State) : (configFault s).engState = .fault := rfl
@[simp] theorem configFault_curBuf (s : State) : (configFault s).curBuf = s.curBuf := rfl
@[simp] theorem configFault_faultCause (s : State) : (configFault s).faultCause = .config := rfl
@[simp] theorem configFault_own0 (s : State) : (configFault s).own0 = s.own0 := rfl
@[simp] theorem configFault_own1 (s : State) : (configFault s).own1 = s.own1 := rfl
@[simp] theorem configFault_xferPtr (s : State) : (configFault s).xferPtr = s.xferPtr := rfl
@[simp] theorem configFault_fb0 (s : State) : (configFault s).fb0 = s.fb0 := rfl
@[simp] theorem configFault_fb1 (s : State) : (configFault s).fb1 = s.fb1 := rfl
@[simp] theorem configFault_pending (s : State) : (configFault s).pending = none := rfl
@[simp] theorem configFault_wire (s : State) : (configFault s).wire = s.wire := rfl
@[simp] theorem configFault_params (s : State) : (configFault s).params = s.params := rfl
@[simp] theorem configFault_xportReady (s : State) : (configFault s).xportReady = s.xportReady := rfl
@[simp] theorem configFault_schedule (s : State) : (configFault s).schedule = s.schedule := rfl
@[simp] theorem configFault_drawn (s : State) : (configFault s).drawn = s.drawn := rfl

/-! ### `resetStep` -/

@[simp] theorem resetStep_result (s : State) : (resetStep s).result = 0 := rfl
@[simp] theorem resetStep_resultKind (s : State) : (resetStep s).resultKind = .none := rfl
@[simp] theorem resetStep_errcode (s : State) : (resetStep s).errcode = .none := rfl
@[simp] theorem resetStep_engState (s : State) : (resetStep s).engState = .idle := rfl
@[simp] theorem resetStep_curBuf (s : State) : (resetStep s).curBuf = 0 := rfl
@[simp] theorem resetStep_faultCause (s : State) : (resetStep s).faultCause = .none := rfl
@[simp] theorem resetStep_own0 (s : State) : (resetStep s).own0 = .producer := rfl
@[simp] theorem resetStep_own1 (s : State) : (resetStep s).own1 = .producer := rfl
@[simp] theorem resetStep_xferPtr (s : State) : (resetStep s).xferPtr = 0 := rfl
@[simp] theorem resetStep_fb0 (s : State) : (resetStep s).fb0 = [] := rfl
@[simp] theorem resetStep_fb1 (s : State) : (resetStep s).fb1 = [] := rfl
@[simp] theorem resetStep_pending (s : State) : (resetStep s).pending = none := rfl
@[simp] theorem resetStep_wire (s : State) : (resetStep s).wire = s.wire := rfl
@[simp] theorem resetStep_params (s : State) : (resetStep s).params = s.params := rfl
@[simp] theorem resetStep_xportReady (s : State) : (resetStep s).xportReady = s.xportReady := rfl
@[simp] theorem resetStep_schedule (s : State) : (resetStep s).schedule = s.schedule := rfl
@[simp] theorem resetStep_drawn (s : State) : (resetStep s).drawn = s.drawn := rfl

/-! ### `setOwn` and `setFb`: every field but the two they choose between -/

@[simp] theorem setOwn_result (s : State) (k : BufIdx) (v : Owner) : (s.setOwn k v).result = s.result := by
  unfold State.setOwn; split <;> rfl
@[simp] theorem setOwn_resultKind (s : State) (k : BufIdx) (v : Owner) : (s.setOwn k v).resultKind = s.resultKind := by
  unfold State.setOwn; split <;> rfl
@[simp] theorem setOwn_errcode (s : State) (k : BufIdx) (v : Owner) : (s.setOwn k v).errcode = s.errcode := by
  unfold State.setOwn; split <;> rfl
@[simp] theorem setOwn_engState (s : State) (k : BufIdx) (v : Owner) : (s.setOwn k v).engState = s.engState := by
  unfold State.setOwn; split <;> rfl
@[simp] theorem setOwn_curBuf (s : State) (k : BufIdx) (v : Owner) : (s.setOwn k v).curBuf = s.curBuf := by
  unfold State.setOwn; split <;> rfl
@[simp] theorem setOwn_faultCause (s : State) (k : BufIdx) (v : Owner) : (s.setOwn k v).faultCause = s.faultCause := by
  unfold State.setOwn; split <;> rfl
@[simp] theorem setOwn_xferPtr (s : State) (k : BufIdx) (v : Owner) : (s.setOwn k v).xferPtr = s.xferPtr := by
  unfold State.setOwn; split <;> rfl
@[simp] theorem setOwn_fb0 (s : State) (k : BufIdx) (v : Owner) : (s.setOwn k v).fb0 = s.fb0 := by
  unfold State.setOwn; split <;> rfl
@[simp] theorem setOwn_fb1 (s : State) (k : BufIdx) (v : Owner) : (s.setOwn k v).fb1 = s.fb1 := by
  unfold State.setOwn; split <;> rfl
@[simp] theorem setOwn_pending (s : State) (k : BufIdx) (v : Owner) : (s.setOwn k v).pending = s.pending := by
  unfold State.setOwn; split <;> rfl
@[simp] theorem setOwn_wire (s : State) (k : BufIdx) (v : Owner) : (s.setOwn k v).wire = s.wire := by
  unfold State.setOwn; split <;> rfl
@[simp] theorem setOwn_params (s : State) (k : BufIdx) (v : Owner) : (s.setOwn k v).params = s.params := by
  unfold State.setOwn; split <;> rfl
@[simp] theorem setOwn_xportReady (s : State) (k : BufIdx) (v : Owner) : (s.setOwn k v).xportReady = s.xportReady := by
  unfold State.setOwn; split <;> rfl
@[simp] theorem setOwn_schedule (s : State) (k : BufIdx) (v : Owner) : (s.setOwn k v).schedule = s.schedule := by
  unfold State.setOwn; split <;> rfl
@[simp] theorem setOwn_drawn (s : State) (k : BufIdx) (v : Owner) : (s.setOwn k v).drawn = s.drawn := by
  unfold State.setOwn; split <;> rfl

@[simp] theorem setFb_result (s : State) (k : BufIdx) (v : Memory) : (s.setFb k v).result = s.result := by
  unfold State.setFb; split <;> rfl
@[simp] theorem setFb_resultKind (s : State) (k : BufIdx) (v : Memory) : (s.setFb k v).resultKind = s.resultKind := by
  unfold State.setFb; split <;> rfl
@[simp] theorem setFb_errcode (s : State) (k : BufIdx) (v : Memory) : (s.setFb k v).errcode = s.errcode := by
  unfold State.setFb; split <;> rfl
@[simp] theorem setFb_engState (s : State) (k : BufIdx) (v : Memory) : (s.setFb k v).engState = s.engState := by
  unfold State.setFb; split <;> rfl
@[simp] theorem setFb_curBuf (s : State) (k : BufIdx) (v : Memory) : (s.setFb k v).curBuf = s.curBuf := by
  unfold State.setFb; split <;> rfl
@[simp] theorem setFb_faultCause (s : State) (k : BufIdx) (v : Memory) : (s.setFb k v).faultCause = s.faultCause := by
  unfold State.setFb; split <;> rfl
@[simp] theorem setFb_own0 (s : State) (k : BufIdx) (v : Memory) : (s.setFb k v).own0 = s.own0 := by
  unfold State.setFb; split <;> rfl
@[simp] theorem setFb_own1 (s : State) (k : BufIdx) (v : Memory) : (s.setFb k v).own1 = s.own1 := by
  unfold State.setFb; split <;> rfl
@[simp] theorem setFb_xferPtr (s : State) (k : BufIdx) (v : Memory) : (s.setFb k v).xferPtr = s.xferPtr := by
  unfold State.setFb; split <;> rfl
@[simp] theorem setFb_pending (s : State) (k : BufIdx) (v : Memory) : (s.setFb k v).pending = s.pending := by
  unfold State.setFb; split <;> rfl
@[simp] theorem setFb_wire (s : State) (k : BufIdx) (v : Memory) : (s.setFb k v).wire = s.wire := by
  unfold State.setFb; split <;> rfl
@[simp] theorem setFb_params (s : State) (k : BufIdx) (v : Memory) : (s.setFb k v).params = s.params := by
  unfold State.setFb; split <;> rfl
@[simp] theorem setFb_xportReady (s : State) (k : BufIdx) (v : Memory) : (s.setFb k v).xportReady = s.xportReady := by
  unfold State.setFb; split <;> rfl
@[simp] theorem setFb_schedule (s : State) (k : BufIdx) (v : Memory) : (s.setFb k v).schedule = s.schedule := by
  unfold State.setFb; split <;> rfl
@[simp] theorem setFb_drawn (s : State) (k : BufIdx) (v : Memory) : (s.setFb k v).drawn = s.drawn := by
  unfold State.setFb; split <;> rfl

/-! ### `issued`: PENDING and the level of xport_ready -/

@[simp] theorem issued_result (w : Word) (r : Bool) (s : State) : (issued w r s).result = s.result := rfl
@[simp] theorem issued_resultKind (w : Word) (r : Bool) (s : State) : (issued w r s).resultKind = s.resultKind := rfl
@[simp] theorem issued_errcode (w : Word) (r : Bool) (s : State) : (issued w r s).errcode = s.errcode := rfl
@[simp] theorem issued_engState (w : Word) (r : Bool) (s : State) : (issued w r s).engState = s.engState := rfl
@[simp] theorem issued_curBuf (w : Word) (r : Bool) (s : State) : (issued w r s).curBuf = s.curBuf := rfl
@[simp] theorem issued_faultCause (w : Word) (r : Bool) (s : State) : (issued w r s).faultCause = s.faultCause := rfl
@[simp] theorem issued_own0 (w : Word) (r : Bool) (s : State) : (issued w r s).own0 = s.own0 := rfl
@[simp] theorem issued_own1 (w : Word) (r : Bool) (s : State) : (issued w r s).own1 = s.own1 := rfl
@[simp] theorem issued_xferPtr (w : Word) (r : Bool) (s : State) : (issued w r s).xferPtr = s.xferPtr := rfl
@[simp] theorem issued_fb0 (w : Word) (r : Bool) (s : State) : (issued w r s).fb0 = s.fb0 := rfl
@[simp] theorem issued_fb1 (w : Word) (r : Bool) (s : State) : (issued w r s).fb1 = s.fb1 := rfl
@[simp] theorem issued_wire (w : Word) (r : Bool) (s : State) : (issued w r s).wire = s.wire := rfl
@[simp] theorem issued_params (w : Word) (r : Bool) (s : State) : (issued w r s).params = s.params := rfl
@[simp] theorem issued_schedule (w : Word) (r : Bool) (s : State) : (issued w r s).schedule = s.schedule := rfl
@[simp] theorem issued_drawn (w : Word) (r : Bool) (s : State) : (issued w r s).drawn = s.drawn := rfl
@[simp] theorem issued_pending (w : Word) (r : Bool) (s : State) : (issued w r s).pending = some w := rfl
@[simp] theorem issued_xportReady (w : Word) (r : Bool) (s : State) : (issued w r s).xportReady = r := rfl
@[simp] theorem issued_own (w : Word) (r : Bool) (s : State) (k : BufIdx) : (issued w r s).own k = s.own k := rfl
@[simp] theorem issued_fb (w : Word) (r : Bool) (s : State) (k : BufIdx) : (issued w r s).fb k = s.fb k := rfl
@[simp] theorem issued_pixelAt (w : Word) (r : Bool) (s : State) (k : BufIdx) (o : Nat) :
    (issued w r s).pixelAt k o = s.pixelAt k o := rfl

/-! ### `advance`: only the schedule and the count of drawn moves -/

@[simp] theorem advance_result (s : State) : s.advance.result = s.result := by
  unfold State.advance; split <;> rfl
@[simp] theorem advance_resultKind (s : State) : s.advance.resultKind = s.resultKind := by
  unfold State.advance; split <;> rfl
@[simp] theorem advance_errcode (s : State) : s.advance.errcode = s.errcode := by
  unfold State.advance; split <;> rfl
@[simp] theorem advance_engState (s : State) : s.advance.engState = s.engState := by
  unfold State.advance; split <;> rfl
@[simp] theorem advance_curBuf (s : State) : s.advance.curBuf = s.curBuf := by
  unfold State.advance; split <;> rfl
@[simp] theorem advance_faultCause (s : State) : s.advance.faultCause = s.faultCause := by
  unfold State.advance; split <;> rfl
@[simp] theorem advance_own0 (s : State) : s.advance.own0 = s.own0 := by
  unfold State.advance; split <;> rfl
@[simp] theorem advance_own1 (s : State) : s.advance.own1 = s.own1 := by
  unfold State.advance; split <;> rfl
@[simp] theorem advance_xferPtr (s : State) : s.advance.xferPtr = s.xferPtr := by
  unfold State.advance; split <;> rfl
@[simp] theorem advance_fb0 (s : State) : s.advance.fb0 = s.fb0 := by
  unfold State.advance; split <;> rfl
@[simp] theorem advance_fb1 (s : State) : s.advance.fb1 = s.fb1 := by
  unfold State.advance; split <;> rfl
@[simp] theorem advance_pending (s : State) : s.advance.pending = s.pending := by
  unfold State.advance; split <;> rfl
@[simp] theorem advance_wire (s : State) : s.advance.wire = s.wire := by
  unfold State.advance; split <;> rfl
@[simp] theorem advance_params (s : State) : s.advance.params = s.params := by
  unfold State.advance; split <;> rfl
@[simp] theorem advance_xportReady (s : State) : s.advance.xportReady = s.xportReady := by
  unfold State.advance; split <;> rfl

/-! ### The buffer accessors -/

theorem bufIdx_cases (k : BufIdx) : k = 0 ∨ k = 1 := by
  revert k; decide

/-- The accessors read two fields each: states that agree on those agree on the accessor. -/
theorem own_congr {s t : State} (h0 : t.own0 = s.own0) (h1 : t.own1 = s.own1) (k : BufIdx) :
    t.own k = s.own k := by
  unfold State.own; rw [h0, h1]

theorem fb_congr {s t : State} (h0 : t.fb0 = s.fb0) (h1 : t.fb1 = s.fb1) (k : BufIdx) :
    t.fb k = s.fb k := by
  unfold State.fb; rw [h0, h1]

theorem pixelAt_congr {s t : State} (h0 : t.fb0 = s.fb0) (h1 : t.fb1 = s.fb1)
    (hp : t.params = s.params) (k : BufIdx) (o : Nat) : t.pixelAt k o = s.pixelAt k o := by
  unfold State.pixelAt; rw [fb_congr h0 h1, hp]

theorem own_setOwn (s : State) (k j : BufIdx) (v : Owner) :
    (s.setOwn k v).own j = if j = k then v else s.own j := by
  rcases bufIdx_cases k with rfl | rfl <;> rcases bufIdx_cases j with rfl | rfl <;> rfl

theorem fb_setFb (s : State) (k j : BufIdx) (m : Memory) :
    (s.setFb k m).fb j = if j = k then m else s.fb j := by
  rcases bufIdx_cases k with rfl | rfl <;> rcases bufIdx_cases j with rfl | rfl <;> rfl

@[simp] theorem fb_setOwn (s : State) (k j : BufIdx) (v : Owner) : (s.setOwn k v).fb j = s.fb j :=
  fb_congr (by simp) (by simp) j

@[simp] theorem own_setFb (s : State) (k j : BufIdx) (m : Memory) : (s.setFb k m).own j = s.own j :=
  own_congr (by simp) (by simp) j

@[simp] theorem own_writeResult (v : Word) (kd : Kind) (s : State) (k : BufIdx) :
    (writeResult v kd s).own k = s.own k := rfl

@[simp] theorem own_retire (s : State) (k : BufIdx) : (retire s).own k = s.own k := rfl

@[simp] theorem own_advance (s : State) (k : BufIdx) : s.advance.own k = s.own k :=
  own_congr (by simp) (by simp) k

@[simp] theorem fb_writeResult (v : Word) (kd : Kind) (s : State) (k : BufIdx) :
    (writeResult v kd s).fb k = s.fb k := rfl

@[simp] theorem fb_retire (s : State) (k : BufIdx) : (retire s).fb k = s.fb k := rfl

@[simp] theorem fb_advance (s : State) (k : BufIdx) : s.advance.fb k = s.fb k :=
  fb_congr (by simp) (by simp) k

@[simp] theorem pixelAt_writeResult (v : Word) (kd : Kind) (s : State) (k : BufIdx) (o : Nat) :
    (writeResult v kd s).pixelAt k o = s.pixelAt k o := rfl

@[simp] theorem pixelAt_retire (s : State) (k : BufIdx) (o : Nat) :
    (retire s).pixelAt k o = s.pixelAt k o := rfl

@[simp] theorem pixelAt_setOwn (s : State) (j k : BufIdx) (v : Owner) (o : Nat) :
    (s.setOwn j v).pixelAt k o = s.pixelAt k o :=
  pixelAt_congr (by simp) (by simp) (by simp) k o

@[simp] theorem pixelAt_advance (s : State) (k : BufIdx) (o : Nat) :
    s.advance.pixelAt k o = s.pixelAt k o :=
  pixelAt_congr (by simp) (by simp) (by simp) k o

end Sys2Proof.Machine
end

