-- ==== Sys2Proof/Laws/Memory.lean ====
section
/-! SUPPORT. The laws of one buffer's contents: what a read gives after a write, and that a write keeps the canonical
form. -/

namespace Sys2Proof.Machine

@[simp] theorem memory_read_nil (d : Pixel) (o : Nat) : Memory.read d [] o = d := rfl

/-- The canonical form, one entry at a time. -/
theorem memory_wf_cons {d : Pixel} {a : Nat} {v : Pixel} {m : Memory} :
    Memory.wf d ((a, v) :: m) = true ↔
      v ≠ d ∧ (∀ e ∈ m.head?, a < e.1) ∧ Memory.wf d m = true := by
  cases m with
  | nil => simp [Memory.wf]
  | cons e m => obtain ⟨b, w⟩ := e; simp [Memory.wf, and_assoc]

/-- In canonical form, an offset below the first entry is not listed. -/
theorem memory_read_below {d : Pixel} {m : Memory} (h : Memory.wf d m = true) {o : Nat}
    (ho : ∀ e ∈ m.head?, o < e.1) : Memory.read d m o = d := by
  induction m with
  | nil => rfl
  | cons e m ih =>
    obtain ⟨a, v⟩ := e
    have hw := memory_wf_cons.mp h
    have hoa : o < a := by simpa using ho
    unfold Memory.read
    rw [if_neg (by omega)]
    exact ih hw.2.2 fun e he => by have := hw.2.1 e he; omega

/-- The first entry of a write: the old first entry, or the offset written. -/
theorem memory_write_head {d : Pixel} {m : Memory} (h : Memory.wf d m = true) {o b : Nat} {v : Pixel}
    (hb : ∀ e ∈ m.head?, b < e.1) (ho : b < o) :
    ∀ e ∈ (Memory.write d m o v).head?, b < e.1 := by
  cases m with
  | nil => unfold Memory.write; split <;> simp [ho]
  | cons e m =>
    obtain ⟨a, w⟩ := e
    have hba : b < a := by simpa using hb
    have hw := memory_wf_cons.mp h
    have htail : ∀ e ∈ m.head?, b < e.1 := fun e he => by have := hw.2.1 e he; omega
    unfold Memory.write
    split
    · split <;> simp [hba, ho]
    · split
      · split
        · exact htail
        · simp [ho]
      · simp [hba]

/-- A write keeps the canonical form. -/
theorem memory_write_wf {d : Pixel} {m : Memory} (h : Memory.wf d m = true) (o : Nat) (v : Pixel) :
    Memory.wf d (Memory.write d m o v) = true := by
  induction m with
  | nil => unfold Memory.write; split <;> simp_all [Memory.wf]
  | cons e m ih =>
    obtain ⟨a, w⟩ := e
    have hw := memory_wf_cons.mp h
    unfold Memory.write
    split
    · split
      · exact h
      · exact memory_wf_cons.mpr ⟨‹_›, by simpa using ‹o < a›, h⟩
    · split
      · split
        · exact hw.2.2
        · exact memory_wf_cons.mpr ⟨‹_›, by subst_vars; exact hw.2.1, hw.2.2⟩
      · exact memory_wf_cons.mpr
          ⟨hw.1, memory_write_head hw.2.2 hw.2.1 (by omega), ih hw.2.2⟩

/-- Read after write, at the same place and at every other (41_framebuffer.md R131). -/
theorem memory_read_write {d : Pixel} {m : Memory} (h : Memory.wf d m = true) (o a : Nat) (v : Pixel) :
    Memory.read d (Memory.write d m o v) a = if a = o then v else Memory.read d m a := by
  induction m with
  | nil =>
    unfold Memory.write
    by_cases hv : v = d
    · rw [if_pos hv, hv]; simp
    · rw [if_neg hv]; rfl
  | cons e m ih =>
    obtain ⟨b, w⟩ := e
    have hw := memory_wf_cons.mp h
    unfold Memory.write
    split
    · rename_i hob
      by_cases hv : v = d
      · rw [if_pos hv]
        split
        · rename_i hao
          rw [hao, hv]
          exact memory_read_below h (by simpa using hob)
        · rfl
      · rw [if_neg hv]; rfl
    · split
      · rename_i hno hob
        subst hob
        by_cases hv : v = d
        · rw [if_pos hv]
          split
          · rename_i hao
            rw [hao, hv]
            exact memory_read_below hw.2.2 hw.2.1
          · rename_i hao
            rw [Memory.read, if_neg hao]
        · rw [if_neg hv, Memory.read, Memory.read]
          split <;> rfl
      · rename_i hno hob
        rw [Memory.read, Memory.read, ih hw.2.2]
        by_cases hab : a = b
        · rw [if_pos hab, if_pos hab, if_neg (by omega)]
        · rw [if_neg hab, if_neg hab]

/-- Every entry after a write is an old entry or the one written. -/
theorem memory_mem_write {d : Pixel} {m : Memory} {o : Nat} {v : Pixel} {e : Nat × Pixel}
    (he : e ∈ Memory.write d m o v) : e = (o, v) ∨ e ∈ m := by
  induction m with
  | nil => unfold Memory.write at he; split at he <;> simp_all
  | cons f m ih =>
    obtain ⟨b, w⟩ := f
    unfold Memory.write at he
    split at he
    · split at he
      · exact .inr he
      · simpa using he
    · split at he
      · split at he
        · exact .inr (by simp [he])
        · rcases List.mem_cons.mp he with h | h
          · exact .inl h
          · exact .inr (by simp [h])
      · rcases List.mem_cons.mp he with h | h
        · exact .inr (by simp [h])
        · rcases ih h with h | h
          · exact .inl h
          · exact .inr (by simp [h])

/-- What an offset reads as is an entry of the list, or the sentinel. -/
theorem memory_read_cases (d : Pixel) (m : Memory) (o : Nat) :
    Memory.read d m o = d ∨ (o, Memory.read d m o) ∈ m := by
  induction m with
  | nil => exact .inl rfl
  | cons e m ih =>
    obtain ⟨a, v⟩ := e
    unfold Memory.read
    split
    · subst_vars; exact .inr (by simp)
    · rcases ih with h | h
      · exact .inl h
      · exact .inr (by simp [h])

/-- A write of a fitting pixel at an offset below CAP keeps `Memory.Ok`. -/
theorem memory_write_ok {p : Params} {m : Memory} (h : m.Ok p) {o : Nat} (ho : o < p.cap) {v : Pixel}
    (hv : p.fits v = true) : (Memory.write p.sentinel m o v).Ok p := by
  refine ⟨memory_write_wf h.1 o v, fun e he => ?_⟩
  rcases memory_mem_write he with rfl | hm
  · exact ⟨ho, hv⟩
  · exact h.2 e hm

/-- Every element that `Memory.Ok` contents read as fits the format. -/
theorem memory_read_fits {p : Params} {m : Memory} (h : m.Ok p) (hs : p.fits p.sentinel = true) (o : Nat) :
    p.fits (Memory.read p.sentinel m o) = true := by
  rcases memory_read_cases p.sentinel m o with he | hm
  · rw [he]; exact hs
  · exact (h.2 _ hm).2

/-- `FB[j][a]` after the producer port's write of FB[k][o], on contents in canonical form. -/
theorem pixelAt_fbWrite {s : State} {k : BufIdx} (h : Memory.wf s.params.sentinel (s.fb k) = true)
    (o : Nat) (v : Pixel) (j : BufIdx) (a : Nat) :
    (fbWrite k o v s).pixelAt j a = if j = k ∧ a = o then v else s.pixelAt j a := by
  unfold State.pixelAt fbWrite
  rw [fb_setFb, setFb_params]
  by_cases hj : j = k
  · subst hj
    rw [if_pos rfl, memory_read_write h]
    simp
  · simp [hj]

/-- The producer port's write keeps every buffer in canonical form. -/
theorem fbWrite_wf {s : State} (h : ∀ j, Memory.wf s.params.sentinel (s.fb j) = true) (k : BufIdx) (o : Nat)
    (v : Pixel) (j : BufIdx) :
    Memory.wf (fbWrite k o v s).params.sentinel ((fbWrite k o v s).fb j) = true := by
  unfold fbWrite
  rw [fb_setFb, setFb_params]
  split
  · exact memory_write_wf (h k) o v
  · exact h j

/-- RESET leaves nothing listed in either buffer, so every element reads as the sentinel. -/
@[simp] theorem fb_resetStep (s : State) (k : BufIdx) : (resetStep s).fb k = [] := by
  unfold State.fb resetStep; split <;> rfl

/-- The machine after reset lists nothing: its buffers are in canonical form. -/
theorem reset_wf (k : BufIdx) : Memory.wf State.reset.params.sentinel (State.reset.fb k) = true := by
  unfold State.fb; split <;> rfl

end Sys2Proof.Machine
end

