-- ==== Sys2Proof/Laws/Ops.lean ====
section
/-! SUPPORT. What each check list, command, event and step can do, said once: inversion lemmas for the later proofs to
cite, and the frames that hold of every command. -/

namespace Sys2Proof.Machine

/-! ### The check lists -/

/-- The checks of a read pass exactly when the buffer exists, the access is in bounds and the producer owns it. -/
theorem readChecks_none {k : BufIdx} {b : Bool} {s : State} :
    readChecks k b s = none ↔
      k.toNat < s.params.nbuf.count ∧ b = true ∧ s.own k = .producer := by
  unfold readChecks bufferExists
  by_cases hk : k.toNat < s.params.nbuf.count <;> cases b <;> cases s.own k <;> simp [hk]

/-- The checks of a write: those of a read, then the kind. -/
theorem writeChecks_none {k : BufIdx} {b : Bool} {s : State} :
    writeChecks k b s = none ↔ readChecks k b s = none ∧ s.resultKind = pixKind s := by
  unfold writeChecks
  cases readChecks k b s <;> simp

theorem readChecks_ne_none {k : BufIdx} {b : Bool} {s : State} {c : ErrCode}
    (h : readChecks k b s = some c) : c ≠ .none := by
  unfold readChecks at h
  (repeat' split at h) <;> simp_all <;> subst h <;> simp

theorem writeChecks_ne_none {k : BufIdx} {b : Bool} {s : State} {c : ErrCode}
    (h : writeChecks k b s = some c) : c ≠ .none := by
  unfold writeChecks at h
  split at h
  · rename_i hr
    simp only [Option.some.injEq] at h
    subst h
    exact readChecks_ne_none hr
  · split at h
    · simp at h
    · simp only [Option.some.injEq] at h
      subst h
      simp

/-- The checks of SUBMIT pass exactly in IDLE, on a buffer that exists. -/
theorem submitChecks_none {k : BufIdx} {s : State} :
    submitChecks k s = none ↔ k.toNat < s.params.nbuf.count ∧ s.engState = .idle := by
  unfold submitChecks bufferExists
  by_cases hk : k.toNat < s.params.nbuf.count <;> cases s.engState <;> simp [hk]

theorem submitChecks_ne_none {k : BufIdx} {s : State} {c : ErrCode}
    (h : submitChecks k s = some c) : c ≠ .none := by
  unfold submitChecks at h
  (repeat' split at h) <;> simp_all <;> subst h <;> simp

/-- The checks of WAIT pass exactly on the current buffer, in SUBMITTED or COMPLETING. -/
theorem waitChecks_none {k : BufIdx} {s : State} :
    waitChecks k s = none ↔
      k.toNat < s.params.nbuf.count ∧ k = s.curBuf ∧
        (s.engState = .submitted ∨ s.engState = .completing) := by
  unfold waitChecks bufferExists
  by_cases hk : k.toNat < s.params.nbuf.count <;> cases s.engState <;> simp [hk]

theorem waitChecks_ne_none {k : BufIdx} {s : State} {c : ErrCode}
    (h : waitChecks k s = some c) : c ≠ .none := by
  unfold waitChecks at h
  (repeat' split at h) <;> simp_all <;> subst h <;> simp

/-! ### What a command can do -/

/-- The state after a rejection. -/
def rejected (c : ErrCode) (s : State) : State := retire { s with errcode := c }

theorem reject_eq (c : ErrCode) (s : State) : reject c s = .next (rejected c s) := rfl

/-- Every outcome of every command, with the conditions under which it comes. -/
inductive CommandEffect (s : State) : Instr → State → Prop where
  | rejected (i : Instr) (c : ErrCode) (hc : c ≠ .none) : CommandEffect s i (rejected c s)
  | nop : CommandEffect s .nop (retire s)
  | pack565 (r g b : Byte) :
      CommandEffect s (.pack565 r g b) (retire (writeResult ((Machine.pack565 r g b).setWidth 32) .pix565 s))
  | pack666 (r g b : Byte) :
      CommandEffect s (.pack666 r g b) (retire (writeResult ((Machine.pack666 r g b).setWidth 32) .pix666 s))
  | split565 (p : BitVec 16) :
      CommandEffect s (.split565 p) (retire (writeResult (Machine.split565 p) .wire s))
  | split666 (p : BitVec 18) :
      CommandEffect s (.split666 p) (retire (writeResult (Machine.split666 p) .wire s))
  | fbwr (k : BufIdx) (o : BitVec 16) (hk : k.toNat < s.params.nbuf.count) (ho : o.toNat < s.params.cap)
      (hown : s.own k = .producer) (hkind : s.resultKind = pixKind s) :
      CommandEffect s (.fbwr k o) (retire (fbWrite k o.toNat (resultPixel s) s))
  | fbrd (k : BufIdx) (o : BitVec 16) (hk : k.toNat < s.params.nbuf.count) (ho : o.toNat < s.params.cap)
      (hown : s.own k = .producer) :
      CommandEffect s (.fbrd k o)
        (retire (writeResult ((s.pixelAt k o.toNat).setWidth 32) (pixKind s) s))
  | fbwrxy (k : BufIdx) (x y : BitVec 8) (hk : k.toNat < s.params.nbuf.count)
      (hx : x.toNat < s.params.width) (hy : y.toNat < s.params.height)
      (hown : s.own k = .producer) (hkind : s.resultKind = pixKind s) :
      CommandEffect s (.fbwrxy k x y) (retire (fbWrite k (coordOffset x y s) (resultPixel s) s))
  | fbrdxy (k : BufIdx) (x y : BitVec 8) (hk : k.toNat < s.params.nbuf.count)
      (hx : x.toNat < s.params.width) (hy : y.toNat < s.params.height) (hown : s.own k = .producer) :
      CommandEffect s (.fbrdxy k x y)
        (retire (writeResult ((s.pixelAt k (coordOffset x y s)).setWidth 32) (pixKind s) s))
  | submitted (k : BufIdx) (hk : k.toNat < s.params.nbuf.count) (hidle : s.engState = .idle)
      (hready : s.xportReady = true) : CommandEffect s (.submit k) (retire (handOff k s))
  | configFault (k : BufIdx) (hk : k.toNat < s.params.nbuf.count) (hidle : s.engState = .idle)
      (hready : s.xportReady = false) : CommandEffect s (.submit k) (configFault s)
  | held (hk : s.curBuf.toNat < s.params.nbuf.count) (hsub : s.engState = .submitted) :
      CommandEffect s (.wait s.curBuf) s
  | reclaimed (hk : s.curBuf.toNat < s.params.nbuf.count) (hcomp : s.engState = .completing) :
      CommandEffect s (.wait s.curBuf) (retire (reclaim s.curBuf s))
  | status : CommandEffect s .status (retire (writeResult (statusWord s) .status s))
  | errclr : CommandEffect s .errclr (retire { s with errcode := .none })

/-- Coordinates in bounds, as the check reads them. -/
theorem coordInBounds_true {x y : BitVec 8} {s : State} :
    coordInBounds x y s = true ↔ x.toNat < s.params.width ∧ y.toNat < s.params.height := by
  simp [coordInBounds]

theorem offsetInBounds_true {o : BitVec 16} {s : State} :
    offsetInBounds o s = true ↔ o.toNat < s.params.cap := by
  simp [offsetInBounds]

/-- Coordinates in bounds name an offset below CAP (20_memory.md R51). -/
theorem coordOffset_lt {x y : BitVec 8} {s : State} (hx : x.toNat < s.params.width)
    (hy : y.toNat < s.params.height) : coordOffset x y s < s.params.cap := by
  unfold coordOffset Params.cap
  have h1 : y.toNat + 1 ≤ s.params.height := hy
  have h2 := Nat.mul_le_mul_right s.params.width h1
  rw [Nat.add_mul, Nat.one_mul] at h2
  rw [Nat.mul_comm s.params.width]
  omega

/-- Every command answers a next state, and it is one of `CommandEffect`. -/
theorem exec_effect (i : Instr) (s : State) : ∃ t, exec i s = .next t ∧ CommandEffect s i t := by
  cases i with
  | nop => exact ⟨_, rfl, .nop⟩
  | pack565 r g b => exact ⟨_, rfl, .pack565 r g b⟩
  | pack666 r g b => exact ⟨_, rfl, .pack666 r g b⟩
  | split565 p => exact ⟨_, rfl, .split565 p⟩
  | split666 p => exact ⟨_, rfl, .split666 p⟩
  | fbwr k o =>
    show ∃ t, execFbwr k o s = .next t ∧ _
    unfold execFbwr
    cases h : writeChecks k (offsetInBounds o s) s with
    | some c => exact ⟨_, rfl, .rejected _ c (writeChecks_ne_none h)⟩
    | none =>
      obtain ⟨hr, hkind⟩ := writeChecks_none.mp h
      obtain ⟨hk, hb, hown⟩ := readChecks_none.mp hr
      exact ⟨_, rfl, .fbwr k o hk (offsetInBounds_true.mp hb) hown hkind⟩
  | fbrd k o =>
    show ∃ t, execFbrd k o s = .next t ∧ _
    unfold execFbrd
    cases h : readChecks k (offsetInBounds o s) s with
    | some c => exact ⟨_, rfl, .rejected _ c (readChecks_ne_none h)⟩
    | none =>
      obtain ⟨hk, hb, hown⟩ := readChecks_none.mp h
      exact ⟨_, rfl, .fbrd k o hk (offsetInBounds_true.mp hb) hown⟩
  | fbwrxy k x y =>
    show ∃ t, execFbwrxy k x y s = .next t ∧ _
    unfold execFbwrxy
    cases h : writeChecks k (coordInBounds x y s) s with
    | some c => exact ⟨_, rfl, .rejected _ c (writeChecks_ne_none h)⟩
    | none =>
      obtain ⟨hr, hkind⟩ := writeChecks_none.mp h
      obtain ⟨hk, hb, hown⟩ := readChecks_none.mp hr
      obtain ⟨hx, hy⟩ := coordInBounds_true.mp hb
      exact ⟨_, rfl, .fbwrxy k x y hk hx hy hown hkind⟩
  | fbrdxy k x y =>
    show ∃ t, execFbrdxy k x y s = .next t ∧ _
    unfold execFbrdxy
    cases h : readChecks k (coordInBounds x y s) s with
    | some c => exact ⟨_, rfl, .rejected _ c (readChecks_ne_none h)⟩
    | none =>
      obtain ⟨hk, hb, hown⟩ := readChecks_none.mp h
      obtain ⟨hx, hy⟩ := coordInBounds_true.mp hb
      exact ⟨_, rfl, .fbrdxy k x y hk hx hy hown⟩
  | submit k =>
    show ∃ t, execSubmit k s = .next t ∧ _
    unfold execSubmit
    cases h : submitChecks k s with
    | some c => exact ⟨_, rfl, .rejected _ c (submitChecks_ne_none h)⟩
    | none =>
      obtain ⟨hk, hidle⟩ := submitChecks_none.mp h
      refine ⟨_, rfl, ?_⟩
      unfold submitEffect
      cases hr : s.xportReady with
      | true => rw [if_pos rfl]; exact .submitted k hk hidle hr
      | false => rw [if_neg (by simp)]; exact .configFault k hk hidle hr
  | wait k =>
    show ∃ t, execWait k s = .next t ∧ _
    unfold execWait
    cases h : waitChecks k s with
    | some c => exact ⟨_, rfl, .rejected _ c (waitChecks_ne_none h)⟩
    | none =>
      obtain ⟨hk, rfl, hst⟩ := waitChecks_none.mp h
      rcases hst with hst | hst
      · exact ⟨s, by simp [unlessRejected, hst, hold], .held hk hst⟩
      · exact ⟨_, by simp only [unlessRejected, hst]; rfl, .reclaimed hk hst⟩
  | status => exact ⟨_, rfl, .status⟩
  | errclr => exact ⟨_, rfl, .errclr⟩

/-- The inversion lemma of `exec`. -/
theorem exec_cases {i : Instr} {s t : State} (h : exec i s = .next t) : CommandEffect s i t := by
  obtain ⟨u, hu, he⟩ := exec_effect i s
  rw [h] at hu
  cases hu
  exact he

@[simp] theorem rejected_errcode (c : ErrCode) (s : State) : (rejected c s).errcode = c := rfl

@[simp] theorem fbWrite_params (k : BufIdx) (o : Nat) (v : Pixel) (s : State) :
    (fbWrite k o v s).params = s.params := by simp [fbWrite]

@[simp] theorem own_resetStep (s : State) (k : BufIdx) : (resetStep s).own k = .producer := by
  unfold State.own resetStep; split <;> rfl

/-- Who owns each buffer after a hand-off, a reclaim, and a write. -/
theorem own_handOff (k j : BufIdx) (s : State) :
    (handOff k s).own j = if j = k then .engine else s.own j := own_setOwn s k j .engine

theorem own_reclaim (k j : BufIdx) (s : State) :
    (reclaim k s).own j = if j = k then .producer else s.own j := own_setOwn s k j .producer

@[simp] theorem own_fbWrite (k : BufIdx) (o : Nat) (v : Pixel) (s : State) (j : BufIdx) :
    (fbWrite k o v s).own j = s.own j := own_setFb s k j _

/-- Neither the hand-off nor the reclaim touches a buffer's contents. -/
@[simp] theorem pixelAt_handOff (k : BufIdx) (s : State) (j : BufIdx) (o : Nat) :
    (handOff k s).pixelAt j o = s.pixelAt j o := pixelAt_setOwn s k j .engine o

@[simp] theorem pixelAt_reclaim (k : BufIdx) (s : State) (j : BufIdx) (o : Nat) :
    (reclaim k s).pixelAt j o = s.pixelAt j o := pixelAt_setOwn s k j .producer o

/-- The kind check, as the statements say it. -/
theorem holdsPixel_iff {s : State} : s.HoldsPixel ↔ s.resultKind = pixKind s := by
  unfold State.HoldsPixel pixKind; cases s.params.format <;> simp

/-- The pixel a write stores is RESULT modulo 2 ^ PIXEL_BITS. -/
theorem resultPixel_toNat (s : State) :
    (resultPixel s).toNat = s.result.toNat % 2 ^ s.params.pixelBits := by
  unfold resultPixel Params.pixelBits
  cases s.params.format <;> simp
  omega

/-- A pixel is WIRE_BYTES bytes on the wire. -/
theorem pixelBytes_length (p : Params) (v : Pixel) : (pixelBytes p.format v).length = p.wireBytes := by
  unfold pixelBytes Params.wireBytes; cases p.format <;> rfl

/-- What no command touches: the wire, the parameters, and the model's own fields. -/
theorem commandEffect_frame {i : Instr} {s t : State} (h : CommandEffect s i t) :
    t.wire = s.wire ∧ SameEnvironment s t := by
  unfold SameEnvironment
  cases h <;> simp [rejected, fbWrite, handOff, reclaim]

/-- A command retires, or it is the held WAIT. -/
theorem commandEffect_pending {i : Instr} {s t : State} (h : CommandEffect s i t) :
    t.pending = none ∨ (t = s ∧ i = .wait s.curBuf ∧ s.engState = .submitted) := by
  cases h with
  | held hk hsub => exact .inr ⟨rfl, rfl, hsub⟩
  | _ => exact .inl rfl

/-! ### What a step can do -/

/-- The transport port at an offset it is defined at. -/
theorem xRead_some {o : Nat} {s : State} (hs : s.engState = .submitted)
    (hown : s.own s.curBuf = .engine) (ho : o < s.params.cap) :
    xRead o s = some (s.pixelAt s.curBuf o) := by
  unfold xRead; rw [if_pos ⟨hs, hown, ho⟩]

theorem xRead_none {o : Nat} {s : State} (hown : s.own s.curBuf ≠ .engine) : xRead o s = none := by
  unfold xRead; rw [if_neg (fun h => hown h.2.1)]

/-- The state after an enabled EMIT. -/
def emitted (s : State) : State :=
  { s with
    wire := s.wire ++ pixelBytes s.params.format (s.pixelAt s.curBuf s.xferPtr)
    xferPtr := s.xferPtr + 1 }

/-- EMIT does nothing, puts the next pixel on the wire, or stops outside the transport port's domain. -/
theorem emitEvent_eq (s : State) :
    emitEvent s =
      if s.engState = .submitted ∧ s.xferPtr < s.params.cap then
        if s.own s.curBuf = .engine then .next (emitted s) else .fault .transportPortUndefined
      else .next s := by
  unfold emitEvent
  by_cases hen : s.engState = .submitted ∧ s.xferPtr < s.params.cap
  · rw [if_pos hen, if_pos hen]
    by_cases hown : s.own s.curBuf = .engine
    · rw [xRead_some hen.1 hown hen.2, if_pos hown]; rfl
    · rw [xRead_none hown, if_neg hown]
  · rw [if_neg hen, if_neg hen]

/-- A word that decodes to no command is rejected ILLEGAL. -/
theorem evalWord_illegal {w : Word} {s : State} (hd : ∀ i, decode w ≠ .command i) :
    evalWord w s = .next (rejected .illegal s) := by
  unfold evalWord
  cases h : decode w with
  | command i => exact absurd h (hd i)
  | reserved => rfl
  | illegal => rfl

theorem evalWord_command {w : Word} {i : Instr} (s : State) (hd : decode w = .command i) :
    evalWord w s = exec i s := by
  unfold evalWord; rw [hd]

/-- The HOST's step with PENDING empty evaluates the word it issues. -/
theorem hostStep_none {w : Word} {ready : Bool} {s : State} (hp : s.pending = none) :
    hostStep w ready s = evalWord w (issued w ready s) := by
  unfold hostStep; rw [hp]

/-- While a command is pending the HOST takes no step. -/
theorem hostStep_some {w v : Word} {ready : Bool} {s : State} (hp : s.pending = some v) :
    hostStep w ready s = .next s := by
  unfold hostStep; rw [hp]

/-- A command that leaves something in PENDING is the held WAIT, and it changes nothing. -/
theorem exec_holds {i : Instr} {s t : State} (h : exec i s = .next t) (hp : t.pending ≠ none) :
    t = s ∧ i = .wait s.curBuf ∧ s.CurBufExists ∧ s.engState = .submitted := by
  cases exec_cases h with
  | held hk hsub => exact ⟨rfl, rfl, hk, hsub⟩
  | _ => exact absurd rfl hp

theorem exec_held {s : State} (hk : s.CurBufExists) (hs : s.engState = .submitted) :
    exec (.wait s.curBuf) s = .next s := by
  show execWait _ _ = _
  unfold execWait
  rw [waitChecks_none.mpr ⟨hk, rfl, .inl hs⟩]
  simp [unlessRejected, hs, hold]

/-- Every word's evaluation retires, or it is a WAIT that holds. -/
theorem evalWord_next (w : Word) (s : State) :
    ∃ t, evalWord w s = .next t ∧
      (t.pending = none ∨ (t = s ∧ decode w = .command (.wait s.curBuf) ∧ s.CurBufExists ∧
        s.engState = .submitted)) := by
  by_cases hd : ∃ i, decode w = .command i
  · obtain ⟨i, hd⟩ := hd
    obtain ⟨t, ht, -⟩ := exec_effect i s
    refine ⟨t, by rw [evalWord_command _ hd, ht], ?_⟩
    by_cases hp : t.pending = none
    · exact .inl hp
    · obtain ⟨h1, rfl, h2, h3⟩ := exec_holds ht hp
      exact .inr ⟨h1, hd, h2, h3⟩
  · exact ⟨_, evalWord_illegal fun i hi => hd ⟨i, hi⟩, .inl rfl⟩

/-- Nothing is evaluated again exactly when PENDING is empty or a WAIT holds in it. -/
theorem reevaluated_none {s : State} : reevaluated s = none ↔ s.Quiet := by
  unfold reevaluated State.Quiet
  cases hp : s.pending with
  | none => simp
  | some w =>
    obtain ⟨t, ht, h⟩ := evalWord_next w s
    simp only [ht, reduceCtorEq, false_or]
    rcases h with h | ⟨rfl, hd, hk, hs⟩
    · rw [if_pos h]
      refine ⟨nofun, ?_⟩
      rintro ⟨hk, hs, v, hv, hd⟩
      simp only [Option.some.injEq] at hv
      subst hv
      rw [evalWord_command _ hd, exec_held hk hs] at ht
      cases ht
      rw [hp] at h; cases h
    · rw [if_neg (by simp [hp])]
      exact ⟨fun _ => ⟨hk, hs, w, rfl, hd⟩, fun _ => rfl⟩

/-- What is evaluated again retires, in the state as it is. -/
theorem reevaluated_some {s : State} {a : Answer} (h : reevaluated s = some a) :
    ∃ w t, s.pending = some w ∧ evalWord w s = .next t ∧ t.pending = none ∧ a = .next t := by
  unfold reevaluated at h
  cases hp : s.pending with
  | none => rw [hp] at h; cases h
  | some w =>
    obtain ⟨t, ht, -⟩ := evalWord_next w s
    simp only [hp, ht] at h
    split at h
    · rename_i hn
      exact ⟨w, t, rfl, ht, hn, by cases h; rfl⟩
    · cases h

/-- `u` is the state in which the next step evaluates the word `w`: with the word just issued, or as it is, with the
word pending. -/
inductive Presents (s : State) : Word → State → Prop where
  | issued (w : Word) (ready : Bool) (hm : s.nextMove = .host w ready) (hp : s.pending = none) :
      Presents s w (issued w ready s.advance)
  | pending (w : Word) (hm : s.nextMove ≠ .reset) (hp : s.pending = some w) (hq : ¬ s.Quiet) :
      Presents s w s

/-- Every outcome of a step that answers a next state (00_scope.md R8). -/
inductive StepEffect (s : State) : State → Prop where
  | command (w : Word) (i : Instr) (u t : State) (hw : Presents s w u) (hd : decode w = .command i)
      (he : CommandEffect u i t) : StepEffect s t
  | illegal (w : Word) (u : State) (hw : Presents s w u) (hd : ∀ i, decode w ≠ .command i) :
      StepEffect s (rejected .illegal u)
  | passed (hm : s.nextMove ≠ .reset) (hq : s.Quiet) (hn : ¬ s.TransportMoves)
      (hp : s.pending = none → ∀ w ready, s.nextMove ≠ .host w ready) : StepEffect s s.advance
  | emitted (hm : s.nextMove = .emit) (hq : s.Quiet) (hs : s.engState = .submitted)
      (hown : s.own s.curBuf = .engine) (hx : s.xferPtr < s.params.cap) : StepEffect s (emitted s.advance)
  | completed (hm : s.nextMove = .done) (hq : s.Quiet) (hs : s.engState = .submitted)
      (hx : s.xferPtr = s.params.cap) : StepEffect s { s.advance with engState := .completing }
  | failed (hm : s.nextMove = .xerr) (hq : s.Quiet) (hs : s.engState = .submitted) :
      StepEffect s (enterFault .transfer s.advance)
  | reset (hm : s.nextMove = .reset) : StepEffect s (resetStep s.advance)

/-- The word a step evaluates, in `StepEffect`'s terms. -/
theorem stepEffect_of_evalWord {s t u : State} {w : Word} (hw : Presents s w u)
    (h : evalWord w u = .next t) : StepEffect s t := by
  by_cases hd : ∃ i, decode w = .command i
  · obtain ⟨i, hd⟩ := hd
    rw [evalWord_command _ hd] at h
    exact .command w i u t hw hd (exec_cases h)
  · have hd' : ∀ i, decode w ≠ .command i := fun i hi => hd ⟨i, hi⟩
    rw [evalWord_illegal hd'] at h
    cases h
    exact .illegal w u hw hd'

/-- A RESET that comes next is made, whatever is pending. -/
theorem step_reset {s : State} (hm : s.nextMove = .reset) : step s = .next (resetStep s.advance) := by
  show nextStep s = _
  unfold nextStep; rw [if_pos hm]; rfl

/-- A pending command that does not hold is evaluated in the next step, unless a reset comes first. -/
theorem step_pending {s : State} {w : Word} (hm : s.nextMove ≠ .reset) (hp : s.pending = some w)
    (hq : ¬ s.Quiet) : step s = evalWord w s := by
  show nextStep s = _
  unfold nextStep
  rw [if_neg hm]
  cases h : reevaluated s with
  | none => exact absurd (reevaluated_none.mp h) hq
  | some a =>
    obtain ⟨v, t, hv, ht, -, rfl⟩ := reevaluated_some h
    rw [hp] at hv; cases hv
    exact ht.symm

/-- Otherwise the next step is the next move. -/
theorem step_quiet {s : State} (hq : s.Quiet) : step s = moveStep s.nextMove s.advance := by
  show nextStep s = _
  unfold nextStep
  split
  · rename_i hm; rw [hm]
  · rw [reevaluated_none.mpr hq]

/-- The inversion lemma of `step`. -/
theorem step_cases {s t : State} (h : step s = .next t) : StepEffect s t := by
  by_cases hr : s.nextMove = .reset
  · rw [step_reset hr] at h; cases h; exact .reset hr
  by_cases hq : s.Quiet
  · rw [step_quiet hq] at h
    cases hm : s.nextMove with
    | reset => exact absurd hm hr
    | host w ready =>
      rw [hm] at h
      cases hp : s.pending with
      | none =>
        have h' : evalWord w (issued w ready s.advance) = .next t := by
          rw [← h]; exact (hostStep_none (by simpa using hp)).symm
        exact stepEffect_of_evalWord (.issued w ready hm hp) h'
      | some v =>
        have h' : Host.Outcome.next s.advance = (.next t : Answer) := by
          rw [← h]; exact (hostStep_some (by simpa using hp)).symm
        cases h'
        exact .passed hr hq (by simp [State.TransportMoves, hm]) (by simp [hp])
    | emit =>
      rw [hm] at h
      simp only [moveStep, emitEvent_eq] at h
      split at h
      · rename_i hen
        split at h
        · rename_i hown
          cases h
          exact .emitted hm hq (by simpa using hen.1) (by simpa using hown) (by simpa using hen.2)
        · cases h
      · rename_i hen
        cases h
        refine .passed hr hq ?_ (by simp [hm])
        rintro ⟨-, hs, h⟩
        simp only [hm, reduceCtorEq, false_and, or_false, true_and] at h
        exact hen ⟨by simpa using hs, by simpa using h⟩
    | done =>
      rw [hm] at h
      simp only [moveStep, doneEvent, Host.Outcome.next.injEq] at h
      subst h
      split
      · rename_i hen; exact .completed hm hq (by simpa using hen.1) (by simpa using hen.2)
      · rename_i hen
        refine .passed hr hq ?_ (by simp [hm])
        rintro ⟨-, hs, h⟩
        simp only [hm, reduceCtorEq, false_and, or_false, true_and, false_or] at h
        exact hen ⟨by simpa using hs, by simpa using h⟩
    | xerr =>
      rw [hm] at h
      simp only [moveStep, xerrEvent, Host.Outcome.next.injEq] at h
      subst h
      split
      · rename_i hen; exact .failed hm hq (by simpa using hen)
      · rename_i hen
        exact .passed hr hq (fun h => hen (by simpa using h.2.1)) (by simp [hm])
  · cases hp : s.pending with
    | none => exact absurd (.inl hp) hq
    | some w =>
      rw [step_pending hr hp hq] at h
      exact stepEffect_of_evalWord (.pending w hr hp hq) h

/-- The word evaluated is pending while it is evaluated. -/
theorem presents_pending {s u : State} {w : Word} (h : Presents s w u) : u.pending = some w := by
  cases h with
  | issued => rfl
  | pending hm hp => assumption

/-- The word a step evaluates, as the statements say it; and no reset is then next. -/
theorem presents_evaluates {s u : State} {w : Word} (h : Presents s w u) :
    s.EvaluatesWord w ∧ s.nextMove ≠ .reset := by
  cases h with
  | issued ready hm hp => exact ⟨.inl ⟨hp, ready, hm⟩, by simp [hm]⟩
  | pending hm hp hq => exact ⟨.inr ⟨hp, hm, hq⟩, hm⟩

/-- Presenting a word changes nothing of the block but PENDING. -/
theorem presents_frame {s u : State} {w : Word} (h : Presents s w u) :
    u.engState = s.engState ∧ u.curBuf = s.curBuf ∧ u.faultCause = s.faultCause ∧ u.xferPtr = s.xferPtr ∧
      u.result = s.result ∧ u.resultKind = s.resultKind ∧ u.errcode = s.errcode ∧ u.wire = s.wire ∧
      u.params = s.params ∧ (∀ k, u.own k = s.own k) ∧ (∀ k, u.fb k = s.fb k) ∧
      ∀ k o, u.pixelAt k o = s.pixelAt k o := by
  cases h <;> simp

end Sys2Proof.Machine
end

