-- ==== Sys2Proof/Laws/PerInstr.lean ====
section
/-! SUPPORT. The per-instruction families: one lemma per constructor of `Instr`. -/

namespace Sys2Proof.Laws.EncodedInFormat

/-- The word of a command carries its opcode in [31:28] and zeros in its format's reserved field (30_encoding.md R71,
R72 to R78, R80). -/
def Statement (i : Instr) : Prop :=
  opField (encode i) = opcodeOf i ∧ reservedBits (formatOf i) (encode i) = 0

theorem nop : Statement .nop := by
  constructor <;> simp [encode, opcodeOf, formatOf]

theorem pack565 (r g b : Byte) : Statement (.pack565 r g b) := by
  constructor <;> simp [encode, opcodeOf, formatOf]

theorem pack666 (r g b : Byte) : Statement (.pack666 r g b) := by
  constructor <;> simp [encode, opcodeOf, formatOf]

theorem split565 (p : BitVec 16) : Statement (.split565 p) := by
  constructor <;> simp [encode, opcodeOf, formatOf]

theorem split666 (p : BitVec 18) : Statement (.split666 p) := by
  constructor <;> simp [encode, opcodeOf, formatOf]

theorem fbwr (k : BufIdx) (o : BitVec 16) : Statement (.fbwr k o) := by
  constructor <;> simp [encode, opcodeOf, formatOf]

theorem fbrd (k : BufIdx) (o : BitVec 16) : Statement (.fbrd k o) := by
  constructor <;> simp [encode, opcodeOf, formatOf]

theorem fbwrxy (k : BufIdx) (x y : BitVec 8) : Statement (.fbwrxy k x y) := by
  constructor <;> simp [encode, opcodeOf, formatOf]

theorem fbrdxy (k : BufIdx) (x y : BitVec 8) : Statement (.fbrdxy k x y) := by
  constructor <;> simp [encode, opcodeOf, formatOf]

theorem submit (k : BufIdx) : Statement (.submit k) := by
  constructor <;> simp [encode, opcodeOf, formatOf]

theorem wait (k : BufIdx) : Statement (.wait k) := by
  constructor <;> simp [encode, opcodeOf, formatOf]

theorem status : Statement .status := by
  constructor <;> simp [encode, opcodeOf, formatOf]

theorem errclr : Statement .errclr := by
  constructor <;> simp [encode, opcodeOf, formatOf]

end Sys2Proof.Laws.EncodedInFormat
end

