-- ==== Sys2Proof/Laws/Runs.lean ====
section
/-! SUPPORT. Small lemmas about runs: `State.after` one step at a time, and a step whose move is scheduled. -/

namespace Sys2Proof.Machine

theorem stepOrStay_of_next {s t : State} (h : step s = .next t) : s.stepOrStay = t := by
  unfold State.stepOrStay; rw [h]

/-- The first of n + 1 steps, taken off. -/
theorem after_succ (s : State) (n : Nat) : s.after (n + 1) = s.stepOrStay.after n := by
  induction n with
  | zero => rfl
  | succ n ih => show (s.after (n + 1)).stepOrStay = _; rw [ih]; rfl

theorem after_add (s : State) (a b : Nat) : s.after (a + b) = (s.after a).after b := by
  induction b with
  | zero => rfl
  | succ b ih => show (s.after (a + b)).stepOrStay = _; rw [ih]; rfl

/-- Each state of a run comes from the one before by a step, or is the same where the step stops. -/
theorem after_next_or_stay (s : State) (n : Nat) :
    step (s.after n) = .next (s.after (n + 1)) ∨ s.after (n + 1) = s.after n := by
  simp only [State.after, State.stepOrStay]
  cases step (s.after n) <;> simp

/-- Every step from a state with a WAIT held or nothing pending makes the scheduled move. -/
theorem step_scheduled {s : State} {m : Move} {ms : List Move} (hq : s.Quiet) (h : s.schedule = m :: ms) :
    step s = moveStep m { s with schedule := ms } := by
  rw [step_quiet hq]; unfold State.nextMove State.advance; rw [h]

/-- A scheduled HOST step, with PENDING empty, evaluates the command it issues. -/
theorem step_scheduled_command {s : State} {ready : Bool} {ms : List Move} {w : Word} {i : Instr}
    (h : s.schedule = .host w ready :: ms) (hp : s.pending = none) (hd : decode w = .command i) :
    step s = exec i (issued w ready { s with schedule := ms }) := by
  rw [step_scheduled (.inl hp) h]
  show hostStep w ready _ = _
  rw [hostStep_none (s := { s with schedule := ms }) hp, evalWord_command _ hd]

/-- A held WAIT that the engine has released is evaluated in the next step (42_transfer.md R151). -/
theorem step_released {s : State} (hm : s.nextMove ≠ .reset) (hp : s.pending = some (encode (.wait s.curBuf)))
    (hd : decode (encode (.wait s.curBuf)) = .command (.wait s.curBuf)) (hs : s.engState ≠ .submitted) :
    step s = exec (.wait s.curBuf) s := by
  rw [step_pending hm hp, evalWord_command _ hd]
  rintro (h | ⟨-, h, -⟩)
  · rw [hp] at h; cases h
  · exact hs h

end Sys2Proof.Machine
end

