-- ==== Sys2Proof/Tests/Slice0.lean ====
section
/-! SUPPORT. Tests of the model against the spec's own words and vectors (30_encoding.md section 5, 95_test_vectors.md),
smoke tests of the well-formedness checks, and a witness for every statement that has hypotheses. -/

namespace Sys2Proof.Tests

open Sys2Proof.Machine

/-! ### Helpers -/

/-- The 2 by 2 block of 95_test_vectors.md section 2.4, sentinel 0x1234, at power-up. -/
def block (n : BufCount) (f : PixelFormat) : State := State.powerUp ⟨2, 2, n, f, 0x1234⟩

/-- A block with the reference geometry (95_test_vectors.md section 2.3) and RESULT = 0xF800 of kind PIX565. -/
def red (n : BufCount) (w h : Nat) : State :=
  { State.powerUp ⟨w, h, n, .rgb565, 0x1234⟩ with result := 0xF800, resultKind := .pix565 }

/-- `block` with b0 in flight and `p` pixels sent. -/
def inFlight (f : PixelFormat) (p : Nat) : State :=
  { block .two f with engState := .submitted, own0 := .engine, xferPtr := p, resultKind := .handle }

/-- `block` with b0 sent and not yet reclaimed. -/
def completing : State := { inFlight .rgb565 4 with engState := .completing }

/-- `block` after a TransferFault on b0. -/
def faulted : State := { inFlight .rgb565 2 with engState := .fault, faultCause := .transfer }

/-- The same state with a WAIT b0 pending. -/
def waiting (s : State) : State := { s with pending := some 0xA0000000 }

/-- The same state with these moves scheduled. -/
def next (ms : List Move) (s : State) : State := { s with schedule := ms }

/-- The state a command gives. -/
def run (i : Instr) (s : State) : State :=
  match exec i s with
  | .next t => t
  | .fault _ => s
  | .refused _ => s

/-- The state a move gives. -/
def moved (m : Move) (s : State) : State :=
  match moveStep m s with
  | .next t => t
  | .fault _ => s
  | .refused _ => s

/-! ### Decoding: every command's word, bit by bit from its format (30_encoding.md R72 to R80, R87) -/

theorem test_decode_nop : decode 0b0000_0000000000000000000000000000 = .command .nop := by decide
theorem test_decode_pack565 :
    decode 0b0001_0000_00010010_00110100_01010110 = .command (.pack565 0x12 0x34 0x56) := by decide
theorem test_decode_pack666 :
    decode 0b0010_0000_00010010_00110100_01010110 = .command (.pack666 0x12 0x34 0x56) := by decide
theorem test_decode_split565 :
    decode 0b0011_000000000000_0001000110101010 = .command (.split565 0x11AA) := by decide
theorem test_decode_split666 :
    decode 0b0100_0000000000_000100001101010101 = .command (.split666 0x4355) := by decide
theorem test_decode_fbwr : decode 0b0101_1_00000000000_0000000000000101 = .command (.fbwr 1 5) := by decide
theorem test_decode_fbrd : decode 0b0110_0_00000000000_0000000000000101 = .command (.fbrd 0 5) := by decide
theorem test_decode_fbwrxy :
    decode 0b0111_0_00000000000_00000010_00000011 = .command (.fbwrxy 0 3 2) := by decide
theorem test_decode_fbrdxy :
    decode 0b1000_1_00000000000_00000010_00000011 = .command (.fbrdxy 1 3 2) := by decide
theorem test_decode_submit : decode 0b1001_1_000000000000000000000000000 = .command (.submit 1) := by decide
theorem test_decode_wait : decode 0b1010_0_000000000000000000000000000 = .command (.wait 0) := by decide
theorem test_decode_status : decode 0b1011_0000000000000000000000000000 = .command .status := by decide
theorem test_decode_errclr : decode 0b1100_0000000000000000000000000000 = .command .errclr := by decide

/-- V-IL-1 to V-IL-17 of 95_test_vectors.md section 2.2, and 0x58010000. -/
theorem test_decode_illegal_low :
    decode 0x00000001 = .illegal ∧ decode 0x01000000 = .illegal ∧
    decode 0x11000000 = .illegal ∧ decode 0x21000000 = .illegal ∧
    decode 0x30010000 = .illegal ∧ decode 0x38000000 = .illegal := by decide
theorem test_decode_illegal_mid :
    decode 0x40040000 = .illegal ∧ decode 0x50010000 = .illegal ∧
    decode 0x54000000 = .illegal ∧ decode 0x60010000 = .illegal ∧
    decode 0x70010000 = .illegal ∧ decode 0x80010000 = .illegal := by decide
theorem test_decode_illegal_high :
    decode 0x90000001 = .illegal ∧ decode 0x94000000 = .illegal ∧
    decode 0xA0000001 = .illegal ∧ decode 0xB0000001 = .illegal ∧
    decode 0xC8000000 = .illegal ∧ decode 0x58010000 = .illegal := by decide

/-- V-IL-18 to V-IL-21. -/
theorem test_decode_reserved :
    decode 0xD0000000 = .reserved ∧ decode 0xE0000000 = .reserved ∧
    decode 0xF0000000 = .reserved ∧ decode 0xFFFFFFFF = .reserved := by decide

theorem test_decodeTableWord :
    decodeTableWord 32 0x58000005 = some (.fbwr 1 5) ∧ decodeTableWord 32 0xD0000000 = none := by decide

/-- Words of 95_test_vectors.md section 2.3 from the encoder. -/
theorem test_encode :
    encode (.fbrd 0 483) = 0x600001E3 ∧ encode (.fbwrxy 0 240 0) = 0x700000F0 ∧
      encode (.wait 1) = 0xA8000000 := by decide

/-! ### Well-formedness: each check refuses an ill-formed term (00_scope.md R9, 30_encoding.md R87) -/

theorem test_params_wf : (⟨240, 240, .two, .rgb565, 0xFFFF⟩ : Params).wf = true := by decide
theorem test_params_width_low : (⟨0, 1, .one, .rgb565, 0⟩ : Params).wf = false := by decide
theorem test_params_width_high : (⟨257, 1, .one, .rgb565, 0⟩ : Params).wf = false := by decide
theorem test_params_height_low : (⟨1, 0, .one, .rgb565, 0⟩ : Params).wf = false := by decide
theorem test_params_height_high : (⟨1, 257, .one, .rgb565, 0⟩ : Params).wf = false := by decide
theorem test_params_sentinel : (⟨1, 1, .one, .rgb565, 0x10000⟩ : Params).wf = false := by decide

/-- One operand too large at a time, for every line that has that operand. -/
theorem test_lines_refused :
    ∀ l ∈ ([.pack565 256 0 0, .pack565 0 256 0, .pack565 0 0 256, .pack666 256 0 0, .pack666 0 256 0,
      .pack666 0 0 256, .split565 0x10000, .split666 0x40000, .fbwr 2 0, .fbwr 0 65536, .fbrd 2 0,
      .fbrd 0 65536, .fbwrxy 2 0 0, .fbwrxy 0 256 0, .fbwrxy 0 0 256, .fbrdxy 2 0 0, .fbrdxy 0 256 0,
      .fbrdxy 0 0 256, .submit 2, .wait 2, .pack 256 0 0, .pack 0 256 0, .pack 0 0 256] : List Line),
      l.wellFormed = false ∧ assemble .rgb565 l = none := by decide

theorem test_pseudo_refused :
    ∀ l ∈ ([.put 2 0 0 0 0 0, .put 0 256 0 0 0 0, .put 0 0 256 0 0 0, .put 0 0 0 256 0 0, .put 0 0 0 0 256 0,
      .put 0 0 0 0 0 256, .puto 2 0 0 0 0, .puto 0 65536 0 0 0, .puto 0 0 256 0 0, .puto 0 0 0 256 0,
      .puto 0 0 0 0 256, .xfer 2, .reclaim 2] : List Line),
      l.wellFormed = false ∧ assemble .rgb565 l = none := by decide

/-- The largest operands are accepted (30_encoding.md R87), and a pseudo-instruction is its expansion (R88). -/
theorem test_lines_accepted :
    assemble .rgb565 (.pack565 255 255 255) = some [0x10FFFFFF] ∧
    assemble .rgb565 (.split666 0x3FFFF) = some [0x4003FFFF] ∧
    assemble .rgb565 (.fbwr 1 65535) = some [0x5800FFFF] ∧
    assemble .rgb565 (.fbrdxy 1 255 255) = some [0x8800FFFF] ∧
    assemble .rgb666 (.put 0 3 2 4 4 4) = some [0x20040404, 0x70000203] ∧
    assemble .rgb565 (.xfer 0) = some [0x90000000, 0xA0000000] := by decide

/-! ### ColorCodec (95_test_vectors.md section 2.1) -/

theorem test_pack565_truncates :   -- V-CO-8, V-CO-10
    (run (.pack565 0xF7 0 0) (block .one .rgb565)).result = 0xF000 ∧
    (run (.pack565 0xFC 0xFA 0xF8) (block .one .rgb565)).result = 0xFFDF := by decide
theorem test_pack565_fields :   -- V-CO-9
    (run (.pack565 0x12 0x34 0x56) (block .one .rgb666)).result = 0x11AA ∧
    (run (.pack565 0x12 0x34 0x56) (block .one .rgb666)).resultKind = .pix565 := by decide
theorem test_pack666_fields :   -- V-CO-18
    (run (.pack666 0x12 0x34 0x56) (block .one .rgb565)).result = 0x4355 ∧
    (run (.pack666 0x12 0x34 0x56) (block .one .rgb565)).resultKind = .pix666 := by decide
theorem test_pack666_unsigned :   -- V-CO-19
    (run (.pack666 0x80 0x80 0x80) (block .one .rgb565)).result = 0x20820 := by decide
theorem test_split565 :   -- V-CO-23
    (run (.split565 0x07E0) (block .one .rgb565)).result = 0x07E0 ∧
    (run (.split565 0x07E0) (block .one .rgb565)).resultKind = .wire := by decide
theorem test_split666 :   -- V-CO-27, V-CO-31
    (run (.split666 0x4355) (block .one .rgb565)).result = 0x103454 ∧
    (run (.split666 0x20821) (block .one .rgb565)).result = 0x808084 := by decide

/-! ### Frame buffer (95_test_vectors.md section 2.3) -/

theorem test_fbwr_last :   -- V-FB-2
    (run (.fbwr 0 57599) (red .two 240 240)).fb0 = [(57599, 0xF800)] := by decide
theorem test_fbwr_bounds :   -- V-FB-3, V-FB-13
    (run (.fbwr 0 57600) (red .two 240 240)).errcode = .bounds ∧
    (run (.fbwr 1 65535) (red .one 240 240)).errcode = .bufidx := by decide
theorem test_fbrd_reads_back :   -- V-FB-5
    (run (.fbrd 1 5) (run (.fbwr 1 5) (red .two 240 240))).result = 0xF800 := by decide
theorem test_fbrd_ownership :   -- V-FB-15
    (run (.fbrd 0 0) (inFlight .rgb565 0)).errcode = .ownership := by decide
theorem test_fbwrxy_offset :   -- V-FB-6
    (run (.fbwrxy 0 3 2) (red .two 240 240)).fb0 = [(483, 0xF800)] := by decide
theorem test_fbwrxy_no_alias :   -- V-FB-9
    (run (.fbwrxy 0 240 0) (red .two 240 240)).errcode = .bounds ∧
    (run (.fbwrxy 0 240 0) (red .two 240 240)).fb0 = [] := by decide
theorem test_fbrdxy :   -- V-FB-11, and the sentinel of R200
    (run (.fbrdxy 1 255 255) (red .two 240 240)).errcode = .bounds ∧
    (run (.fbrdxy 1 239 239) (red .two 240 240)).result = 0x1234 := by decide
theorem test_fbwr_kind :   -- V-FB-20, V-FB-17
    (run (.fbwr 0 0) (block .two .rgb565)).errcode = .kind ∧
    (run (.fbwr 0 0) (inFlight .rgb565 0)).errcode = .ownership := by decide

/-! ### TransferEngine (95_test_vectors.md section 2.4) -/

theorem test_submit :   -- V-TX-1
    (run (.submit 1) { block .two .rgb565 with xportReady := true }).own1 = .engine ∧
    (run (.submit 1) { block .two .rgb565 with xportReady := true }).result = 1 := by decide
theorem test_submit_config_fault :   -- V-TX-2
    (run (.submit 0) (block .two .rgb565)).faultCause = .config ∧
    (run (.submit 0) (block .two .rgb565)).errcode = .faulted := by decide
theorem test_wait_reclaims :   -- V-TX-13
    (run (.wait 0) completing).engState = .idle ∧ (run (.wait 0) completing).own0 = .producer := by decide
theorem test_held_wait_reclaims :   -- V-TX-12, V-TX-13: the WAIT retires in the step after DONE
    ((waiting (inFlight .rgb565 4) |> next [.done, .emit]).after 1).pending = some 0xA0000000 ∧
    ((waiting (inFlight .rgb565 4) |> next [.done, .emit]).after 2).engState = .idle := by decide
theorem test_held_wait_faults :   -- V-TX-14, V-TX-15
    ((waiting (inFlight .rgb565 2) |> next [.emit, .xerr, .emit]).after 2).pending = some 0xA0000000 ∧
    ((waiting (inFlight .rgb565 2) |> next [.emit, .xerr, .emit]).after 3).errcode = .faulted := by decide
theorem test_wait_rejections :   -- V-TX-18, V-TX-19
    (run (.wait 0) (block .two .rgb565)).errcode = .noxfer ∧
    (run (.wait 1) (inFlight .rgb565 0)).errcode = .noxfer := by decide
theorem test_emit_rgb565 :   -- V-TX-8, with the sentinel's bytes (program P3, step 2)
    (moved .emit (inFlight .rgb565 0)).wire = [0x12, 0x34] ∧
    (moved .emit (inFlight .rgb565 0)).xferPtr = 1 := by decide
theorem test_emit_rgb666 :   -- V-TX-24
    (moved .emit { inFlight .rgb666 0 with fb0 := [(0, 0x4355)] }).wire = [0x10, 0x34, 0x54] := by decide
theorem test_done :   -- V-TX-9, V-TX-11
    (moved .done (inFlight .rgb565 3)).engState = .submitted ∧
    (moved .done (inFlight .rgb565 4)).engState = .completing := by decide
theorem test_xerr :   -- V-TX-22
    (moved .xerr (inFlight .rgb565 2)).faultCause = .transfer ∧
    (moved .xerr (inFlight .rgb565 2)).xferPtr = 2 := by decide

/-! ### Control and reset (95_test_vectors.md sections 2.5 and 2.6) -/

theorem test_nop : run .nop (waiting faulted) = faulted := by decide
theorem test_status_in_flight :   -- V-CT-5
    (run .status { inFlight .rgb565 0 with errcode := .ownership }).result = 0x00010411 := by decide
theorem test_status_config_fault :   -- V-CT-9
    (run .status { block .one .rgb666 with
      engState := .fault, faultCause := .config, errcode := .faulted }).result = 0xA803 := by decide
theorem test_errclr :   -- V-TX-23, V-CT-10
    (run .errclr { faulted with errcode := .busy }).errcode = .none ∧
    (run .errclr { faulted with errcode := .busy }).engState = .fault := by decide
theorem test_reset_step :   -- V-RS-2
    moved .reset { faulted with wire := [0x12, 0x34] } =
      { block .two .rgb565 with wire := [0x12, 0x34] } := by decide

/-- A command word is run as the first step after power-up (log 15). -/
theorem test_first_command :
    ((block .two .rgb565).withFetchWord 32 0x10FF0000).stepOrStay =
      { block .two .rgb565 with result := 0xF800, resultKind := .pix565 } := by decide

/-- An illegal word is rejected with no other effect (V-IL-17). -/
theorem test_illegal_errclr :
    ((block .two .rgb565).withFetchWord 32 0xC8000000).stepOrStay =
      { block .two .rgb565 with errcode := .illegal } := by decide

/-! ### Witnesses: for every statement with hypotheses, states and operands that meet them, clause by clause at the
boundary values of their ranges -/

/-- The invariant, as one computation. -/
def invBool (s : State) : Bool :=
  s.params.wf && decide (s.curBuf.toNat < s.params.nbuf.count) &&
  ([0, 1] : List BufIdx).all (fun k => decide (k.toNat < s.params.nbuf.count →
    (s.own k = .engine ↔ k = s.curBuf ∧ (s.engState = .submitted ∨ s.engState = .completing ∨
      (s.engState = .fault ∧ s.faultCause = .transfer))))) &&
  decide (s.faultCause = .none ↔ s.engState ≠ .fault) &&
  decide (s.xferPtr ≤ s.params.cap ∧ (s.engState = .completing → s.xferPtr = s.params.cap)) &&
  (match s.resultKind with
    | .none => decide (s.result = 0)
    | .pix565 => decide (s.result.extractLsb' 16 16 = 0)
    | .pix666 => decide (s.result.extractLsb' 18 14 = 0)
    | .wire => decide (s.result.extractLsb' 24 8 = 0)
    | .handle => decide (s.result.extractLsb' 1 31 = 0)
    | .status => decide (s.result &&& 0xFFFE40C8 = 0)) &&
  ([0, 1] : List BufIdx).all (fun k => Memory.wf s.params.sentinel (s.fb k) &&
    (s.fb k).all (fun e => decide (e.1 < s.params.cap) && s.params.fits e.2)) &&
  decide (s.params.nbuf = .one → s.own1 = .producer ∧ s.fb1 = []) &&
  (match s.pending with
    | none => true
    | some w => decide (decode w = .command (.wait s.curBuf) ∧ s.engState ≠ .idle))

theorem inv_of_bool {s : State} (h : invBool s = true) : s.Inv := by
  simp only [invBool, Bool.and_eq_true, decide_eq_true_eq, List.all_cons, List.all_nil, and_true,
    List.all_eq_true] at h
  obtain ⟨⟨⟨⟨⟨⟨⟨⟨h1, h2⟩, h3⟩, h4⟩, h5⟩, h6⟩, h7⟩, h8⟩, h9⟩ := h
  refine ⟨h1, h2, fun k hk => ?_, h4, h5, ?_, fun k => ?_, h8, fun w hw => ?_⟩
  · rcases bufIdx_cases k with rfl | rfl
    · exact h3.1 hk
    · exact h3.2 hk
  · unfold State.ResultInv
    split at h6 <;> simp_all
  · rcases bufIdx_cases k with rfl | rfl
    · exact h7.1
    · exact h7.2
  · rw [hw] at h9
    exact of_decide_eq_true h9

theorem witness_inv_red : (red .two 2 2).Inv := inv_of_bool (by decide)
theorem witness_inv_inFlight : (inFlight .rgb565 0).Inv ∧ (inFlight .rgb565 4).Inv :=
  ⟨inv_of_bool (by decide), inv_of_bool (by decide)⟩
theorem witness_inv_completing : completing.Inv := inv_of_bool (by decide)
theorem witness_inv_faulted : faulted.Inv := inv_of_bool (by decide)

/-! #### Encoding and the HOST's step -/

theorem witness_EncodeAfterDecode : decode 0x5800FFFF = .command (.fbwr 1 0xFFFF) := by decide

/-- `s` with the HOST's issue of `w` next. -/
def issuing (w : Word) (s : State) : State := next [.host w true] s

theorem quiet_held : (waiting (inFlight .rgb565 0)).Quiet :=
  .inr ⟨by unfold State.CurBufExists; decide, by decide, 0xA0000000, by decide, by decide⟩

theorem witness_HostStepRunsCommand_command :
    (issuing 0xA0000000 (block .two .rgb565)).nextMove = .host 0xA0000000 true ∧
    (issuing 0xA0000000 (block .two .rgb565)).pending = none ∧ decode 0xA0000000 = .command (.wait 0) := by decide
theorem witness_HostStepRunsCommand_illegal :
    (issuing 0xD0000000 (block .two .rgb565)).nextMove = .host 0xD0000000 true ∧
    (issuing 0xD0000000 (block .two .rgb565)).pending = none ∧ ∀ i, decode 0xD0000000 ≠ .command i := by
  refine ⟨by decide, by decide, fun i => ?_⟩
  rw [show decode 0xD0000000 = .reserved by decide]
  exact Decoded.noConfusion
theorem witness_HostStepRunsCommand_blocked :
    (issuing 0 (waiting (inFlight .rgb565 0))).nextMove = .host 0 true ∧
    (issuing 0 (waiting (inFlight .rgb565 0))).pending ≠ none ∧ (issuing 0 (waiting (inFlight .rgb565 0))).Quiet :=
  ⟨by decide, by decide, quiet_held⟩
theorem witness_HostStepRunsCommand_pending :
    (next [.emit] (waiting completing)).nextMove ≠ .reset ∧
    (next [.emit] (waiting completing)).pending = some 0xA0000000 ∧
    evalWord 0xA0000000 (next [.emit] (waiting completing)) =
      .next (run (.wait 0) (next [.emit] (waiting completing))) ∧
    (run (.wait 0) (next [.emit] (waiting completing))).pending = none :=
  ⟨by decide, by decide, rfl, by decide⟩

theorem witness_FetchedWordRunsNext : decode 0x4003FFFF = .command (.split666 0x3FFFF) := by decide

/-- The lowest and the highest reserved opcode, and for each format the lowest and the highest bit of its reserved
field (R82); these are also the witnesses of the ILLEGAL clause of every command's statement. -/
theorem witness_IllegalWords_reserved : 0xD ≤ (opField 0xD0000000).toNat ∧ 0xD ≤ (opField 0xFFFFFFFF).toNat := by
  decide
theorem witness_IllegalWords_N :
    (opField 0x00000001 = 0x0 ∧ (0x00000001#32 &&& 0x0FFFFFFF) ≠ 0) ∧
    (opField 0xB8000000 = 0xB ∧ (0xB8000000#32 &&& 0x0FFFFFFF) ≠ 0) ∧
    (opField 0xC8000000 = 0xC ∧ (0xC8000000#32 &&& 0x0FFFFFFF) ≠ 0) := by decide
theorem witness_IllegalWords_P :
    (opField 0x11000000 = 0x1 ∧ (0x11000000#32 &&& 0x0F000000) ≠ 0) ∧
    (opField 0x28000000 = 0x2 ∧ (0x28000000#32 &&& 0x0F000000) ≠ 0) := by decide
theorem witness_IllegalWords_S :
    (opField 0x30010000 = 0x3 ∧ (0x30010000#32 &&& 0x0FFF0000) ≠ 0) ∧
    (opField 0x38000000 = 0x3 ∧ (0x38000000#32 &&& 0x0FFF0000) ≠ 0) ∧
    (opField 0x40040000 = 0x4 ∧ (0x40040000#32 &&& 0x0FFC0000) ≠ 0) := by decide
theorem witness_IllegalWords_M :
    (opField 0x50010000 = 0x5 ∧ (0x50010000#32 &&& 0x07FF0000) ≠ 0) ∧
    (opField 0x64000000 = 0x6 ∧ (0x64000000#32 &&& 0x07FF0000) ≠ 0) := by decide
theorem witness_IllegalWords_X :
    (opField 0x70010000 = 0x7 ∧ (0x70010000#32 &&& 0x07FF0000) ≠ 0) ∧
    (opField 0x84000000 = 0x8 ∧ (0x84000000#32 &&& 0x07FF0000) ≠ 0) := by decide
theorem witness_IllegalWords_T :
    (opField 0x90000001 = 0x9 ∧ (0x90000001#32 &&& 0x07FFFFFF) ≠ 0) ∧
    (opField 0xA4000000 = 0xA ∧ (0xA4000000#32 &&& 0x07FFFFFF) ≠ 0) := by decide

/-! #### ColorCodec -/

theorem witness_PackedFieldsAreTopBits :
    exec (.pack565 255 255 255) (block .two .rgb565) = .next (run (.pack565 255 255 255) (block .two .rgb565)) ∧
    exec (.pack666 255 255 255) (block .two .rgb565) = .next (run (.pack666 255 255 255) (block .two .rgb565)) :=
  ⟨rfl, rfl⟩
theorem witness_SplitOfPackClearsLowBits :
    exec (.pack666 255 0 3) faulted = .next (run (.pack666 255 0 3) faulted) := rfl
theorem witness_CodecReadsOnlyOperands :
    IsCodec (.pack565 0 0 0) ∧ IsCodec (.pack666 0 0 0) ∧ IsCodec (.split565 0) ∧ IsCodec (.split666 0) :=
  ⟨trivial, trivial, trivial, trivial⟩

/-! #### Frame buffer: the last offset is 3 and the first one out of bounds is 4 -/

theorem witness_BufferAccess_bufidx : (block .one .rgb565).params.nbuf.count ≤ (1 : BufIdx).toNat := by decide
theorem witness_OffsetAccess_bounds :
    (1 : BufIdx).toNat < (block .two .rgb565).params.nbuf.count ∧
    (block .two .rgb565).params.cap ≤ (4 : BitVec 16).toNat := by decide
theorem witness_OffsetAccess_ownership :
    (0 : BufIdx).toNat < (inFlight .rgb565 0).params.nbuf.count ∧
    (3 : BitVec 16).toNat < (inFlight .rgb565 0).params.cap ∧ (inFlight .rgb565 0).own 0 = .engine := by decide
theorem witness_FbwrCommand_kind :
    (1 : BufIdx).toNat < (block .two .rgb565).params.nbuf.count ∧
    (3 : BitVec 16).toNat < (block .two .rgb565).params.cap ∧ (block .two .rgb565).own 1 = .producer ∧
    ¬ (block .two .rgb565).HoldsPixel := by
  unfold State.HoldsPixel; decide
theorem witness_FbwrCommand_stores :
    (1 : BufIdx).toNat < (red .two 2 2).params.nbuf.count ∧
    (3 : BitVec 16).toNat < (red .two 2 2).params.cap ∧ (red .two 2 2).own 1 = .producer ∧
    (red .two 2 2).HoldsPixel ∧ (red .two 2 2).BuffersInv :=
  ⟨by decide, by decide, by decide, .inl (by decide), witness_inv_red.buffers⟩
theorem witness_FbrdCommand_loads :
    (1 : BufIdx).toNat < (inFlight .rgb565 0).params.nbuf.count ∧
    (3 : BitVec 16).toNat < (inFlight .rgb565 0).params.cap ∧ (inFlight .rgb565 0).own 1 = .producer := by decide
theorem witness_CoordAccess_bounds :
    (1 : BufIdx).toNat < (block .two .rgb565).params.nbuf.count ∧
    (block .two .rgb565).params.width ≤ (2 : BitVec 8).toNat ∧
    (block .two .rgb565).params.height ≤ (2 : BitVec 8).toNat := by decide
theorem witness_CoordAccess_ownership :
    (0 : BufIdx).toNat < (inFlight .rgb565 0).params.nbuf.count ∧
    (1 : BitVec 8).toNat < (inFlight .rgb565 0).params.width ∧
    (1 : BitVec 8).toNat < (inFlight .rgb565 0).params.height ∧ (inFlight .rgb565 0).own 0 = .engine := by decide
theorem witness_FbwrxyCommand_kind :
    (1 : BufIdx).toNat < (block .two .rgb565).params.nbuf.count ∧
    (1 : BitVec 8).toNat < (block .two .rgb565).params.width ∧
    (1 : BitVec 8).toNat < (block .two .rgb565).params.height ∧ (block .two .rgb565).own 1 = .producer ∧
    ¬ (block .two .rgb565).HoldsPixel := by
  unfold State.HoldsPixel; decide
theorem witness_FbwrxyCommand_stores :
    (1 : BufIdx).toNat < (red .two 2 2).params.nbuf.count ∧
    (1 : BitVec 8).toNat < (red .two 2 2).params.width ∧ (1 : BitVec 8).toNat < (red .two 2 2).params.height ∧
    (red .two 2 2).own 1 = .producer ∧ (red .two 2 2).HoldsPixel ∧ (red .two 2 2).BuffersInv :=
  ⟨by decide, by decide, by decide, by decide, .inl (by decide), witness_inv_red.buffers⟩
theorem witness_FbrdxyCommand_loads :
    (1 : BufIdx).toNat < (inFlight .rgb565 0).params.nbuf.count ∧
    (1 : BitVec 8).toNat < (inFlight .rgb565 0).params.width ∧
    (1 : BitVec 8).toNat < (inFlight .rgb565 0).params.height ∧
    (inFlight .rgb565 0).own 1 = .producer := by decide
theorem witness_CoordinatesAgreeWithOffsets :
    (red .two 256 256).params.wf = true ∧ (255 : BitVec 8).toNat < (red .two 256 256).params.width ∧
    (255 : BitVec 8).toNat < (red .two 256 256).params.height := by decide

/-- A write of FB[0][3] by `w`, a read of the other buffer, and the read of FB[0][3] by `r` are scheduled. -/
def writeRead (w r : Word) : State := next [.host w true, .host 0x68000000 true, .host r true] (red .two 2 2)

/-- The step of a word that is no write writes nothing. -/
theorem writes_nothing {s : State} {w : Word} {i : Instr} {r : Bool} (k : BufIdx) (o : Nat)
    (hm : s.nextMove = .host w r) (hp : s.pending = none) (hd : decode w = .command i)
    (hi : (∀ a, i ≠ .fbwr k a) ∧ ∀ x y, i ≠ .fbwrxy k x y) : ¬ s.WritesAt k o := by
  have key : ∀ j, s.Evaluates j → j = i := by
    rintro j ⟨v, ⟨-, q, hv⟩ | ⟨hv, -⟩, hj⟩
    · rw [hm] at hv; cases hv; rw [hd] at hj; cases hj; rfl
    · rw [hp] at hv; cases hv
  rintro (⟨a, ha, -⟩ | ⟨x, y, ha, -⟩)
  · exact hi.1 a (key _ ha).symm
  · exact hi.2 x y (key _ ha).symm

theorem witness_ReadReturnsLastWrite_xy :
    let s := writeRead 0x70000101 0x80000101
    s.Inv ∧ (0 : BufIdx).toNat < s.params.nbuf.count ∧ (1 : BitVec 8).toNat < s.params.width ∧
    (1 : BitVec 8).toNat < s.params.height ∧ s.own 0 = .producer ∧ s.HoldsPixel ∧
    s.Evaluates (.fbwrxy 0 1 1) ∧
    (∀ m, 1 ≤ m → m ≤ 2 → ¬ (s.after m).WritesAt 0 3 ∧ (s.after m).nextMove ≠ .reset) ∧
    (s.after 2).own 0 = .producer ∧ (s.after 2).Evaluates (.fbrdxy 0 1 1) := by
  refine ⟨inv_of_bool (by decide), by decide, by decide, by decide, by decide, .inl (by decide),
    ⟨0x70000101, .inl ⟨by decide, true, by decide⟩, by decide⟩, fun m h1 h2 => ?_, by decide,
    ⟨0x80000101, .inl ⟨by decide, true, by decide⟩, by decide⟩⟩
  match m with
  | 1 => exact ⟨writes_nothing (w := 0x68000000) (i := .fbrd 1 0) (r := true) _ _ (by decide) (by decide)
      (by decide) ⟨nofun, nofun⟩, by decide⟩
  | 2 => exact ⟨writes_nothing (w := 0x80000101) (i := .fbrdxy 0 1 1) (r := true) _ _ (by decide) (by decide)
      (by decide) ⟨nofun, nofun⟩, by decide⟩
theorem witness_ReadReturnsLastWrite_offset :
    let s := writeRead 0x50000003 0x60000003
    s.Inv ∧ (0 : BufIdx).toNat < s.params.nbuf.count ∧ (3 : BitVec 16).toNat < s.params.cap ∧
    s.own 0 = .producer ∧ s.HoldsPixel ∧ s.Evaluates (.fbwr 0 3) ∧
    (∀ m, 1 ≤ m → m ≤ 2 → ¬ (s.after m).WritesAt 0 3 ∧ (s.after m).nextMove ≠ .reset) ∧
    (s.after 2).own 0 = .producer ∧ (s.after 2).Evaluates (.fbrd 0 3) := by
  refine ⟨inv_of_bool (by decide), by decide, by decide, by decide, .inl (by decide),
    ⟨0x50000003, .inl ⟨by decide, true, by decide⟩, by decide⟩, fun m h1 h2 => ?_, by decide,
    ⟨0x60000003, .inl ⟨by decide, true, by decide⟩, by decide⟩⟩
  match m with
  | 1 => exact ⟨writes_nothing (w := 0x68000000) (i := .fbrd 1 0) (r := true) _ _ (by decide) (by decide)
      (by decide) ⟨nofun, nofun⟩, by decide⟩
  | 2 => exact ⟨writes_nothing (w := 0x60000003) (i := .fbrd 0 3) (r := true) _ _ (by decide) (by decide)
      (by decide) ⟨nofun, nofun⟩, by decide⟩

theorem witness_OnlyWritesAndResetChangePixels_engine :
    (inFlight .rgb565 0).BuffersInv ∧
    step { inFlight .rgb565 0 with schedule := [.emit] } =
      .next ({ inFlight .rgb565 0 with schedule := [.emit] } : State).stepOrStay ∧
    ({ inFlight .rgb565 0 with schedule := [.emit] } : State).nextMove ≠ .reset ∧
    (inFlight .rgb565 0).own 0 = .engine :=
  ⟨witness_inv_inFlight.1.buffers, rfl, by decide, by decide⟩
theorem witness_OnlyWritesAndResetChangePixels_other :
    let s := next [.host 0x68000000 true] (red .two 2 2)
    s.BuffersInv ∧ step s = .next s.stepOrStay ∧ s.nextMove ≠ .reset ∧ ¬ s.WritesAt 1 0 :=
  ⟨witness_inv_red.buffers, rfl, by decide,
    writes_nothing (w := 0x68000000) (i := .fbrd 1 0) (r := true) _ _ (by decide) (by decide) (by decide)
      ⟨nofun, nofun⟩⟩
theorem witness_EngineBufferIsHiddenFromHost :
    (0 : BufIdx).toNat < completing.params.nbuf.count ∧ completing.own 0 = .engine := by decide

/-! #### TransferEngine -/

theorem witness_SubmitCommand_bufidx :   -- V-TX-7
    ({ block .one .rgb565 with engState := .fault } : State).params.nbuf.count ≤ (1 : BufIdx).toNat := by decide
theorem witness_SubmitCommand_faulted :
    (1 : BufIdx).toNat < faulted.params.nbuf.count ∧ faulted.engState = .fault := by decide
theorem witness_SubmitCommand_busy :
    (1 : BufIdx).toNat < completing.params.nbuf.count ∧ completing.engState = .completing ∧
    (0 : BufIdx).toNat < (inFlight .rgb565 0).params.nbuf.count ∧
    (inFlight .rgb565 0).engState = .submitted := by decide
theorem witness_SubmitCommand_configFault :
    (1 : BufIdx).toNat < (block .two .rgb565).params.nbuf.count ∧ (block .two .rgb565).engState = .idle ∧
    (block .two .rgb565).xportReady = false := by decide
theorem witness_SubmitCommand_handOff :
    (1 : BufIdx).toNat < ({ block .two .rgb565 with xportReady := true } : State).params.nbuf.count ∧
    (block .two .rgb565).engState = .idle ∧
    ({ block .two .rgb565 with xportReady := true } : State).xportReady = true := by decide
theorem witness_WaitCommand_bufidx :
    (block .one .rgb565).params.nbuf.count ≤ (1 : BufIdx).toNat := by decide
theorem witness_WaitCommand_idle :
    (1 : BufIdx).toNat < (block .two .rgb565).params.nbuf.count ∧ (block .two .rgb565).engState = .idle := by decide
theorem witness_WaitCommand_fault :
    (1 : BufIdx).toNat < faulted.params.nbuf.count ∧ faulted.engState = .fault := by decide
theorem witness_WaitCommand_other :
    (1 : BufIdx).toNat < completing.params.nbuf.count ∧ (inFlight .rgb565 0).engState = .submitted ∧
    completing.engState = .completing ∧ (1 : BufIdx) ≠ completing.curBuf ∧
    (1 : BufIdx) ≠ (inFlight .rgb565 0).curBuf := by decide
theorem witness_WaitCommand_holds :
    (0 : BufIdx).toNat < (inFlight .rgb565 4).params.nbuf.count ∧ (inFlight .rgb565 4).engState = .submitted ∧
    (0 : BufIdx) = (inFlight .rgb565 4).curBuf := by decide
theorem witness_WaitCommand_reclaims :
    (0 : BufIdx).toNat < completing.params.nbuf.count ∧ completing.engState = .completing ∧
    (0 : BufIdx) = completing.curBuf := by decide
theorem witness_EmitEvent_rgb565 :
    (inFlight .rgb565 3).engState = .submitted ∧ (inFlight .rgb565 3).own (inFlight .rgb565 3).curBuf = .engine ∧
    (inFlight .rgb565 3).xferPtr < (inFlight .rgb565 3).params.cap ∧
    (inFlight .rgb565 3).params.format = .rgb565 := by decide
theorem witness_EmitEvent_rgb666 :
    (inFlight .rgb666 0).engState = .submitted ∧ (inFlight .rgb666 0).own (inFlight .rgb666 0).curBuf = .engine ∧
    (inFlight .rgb666 0).xferPtr < (inFlight .rgb666 0).params.cap ∧
    (inFlight .rgb666 0).params.format = .rgb666 := by decide
theorem witness_DoneAndXerrEvents :
    (inFlight .rgb565 4).engState = .submitted ∧ (inFlight .rgb565 4).xferPtr = (inFlight .rgb565 4).params.cap ∧
    (inFlight .rgb565 0).engState = .submitted := by decide
theorem witness_DisabledEventsChangeNothing :
    completing.engState ≠ .submitted ∧ (inFlight .rgb565 4).params.cap ≤ (inFlight .rgb565 4).xferPtr ∧
    (inFlight .rgb565 3).xferPtr ≠ (inFlight .rgb565 3).params.cap := by decide
theorem witness_WaitBeforeDoneAgreesWithAfter :
    (inFlight .rgb565 4).engState = .submitted ∧ (inFlight .rgb565 4).xferPtr = (inFlight .rgb565 4).params.cap ∧
    (inFlight .rgb565 4).CurBufExists ∧ (inFlight .rgb565 4).pending = none ∧
    (next [.emit] (inFlight .rgb565 4)).nextMove ≠ .reset :=
  ⟨by decide, by decide, witness_inv_inFlight.2.curBuf, by decide, by decide⟩
/-- A held WAIT, with each move of another agent next. -/
theorem witness_HeldWaitIsEvaluatedAgain (p : Nat) :
    (waiting (inFlight .rgb565 p)).CurBufExists ∧ (waiting (inFlight .rgb565 p)).engState = .submitted ∧
    (waiting (inFlight .rgb565 p)).pending = some (encode (.wait (waiting (inFlight .rgb565 p)).curBuf)) ∧
    (issuing 0 (waiting (inFlight .rgb565 p))).nextMove = .host 0 true ∧
    (next [.reset] (waiting (inFlight .rgb565 p))).nextMove = .reset :=
  ⟨witness_inv_inFlight.1.curBuf, rfl, show some 0xA0000000#32 = some (encode (.wait 0)) by decide, rfl, rfl⟩
theorem witness_HeldWaitIsEvaluatedAgain_events :
    step (next [.emit] (waiting (inFlight .rgb565 3))) =
      .next (next [.emit] (waiting (inFlight .rgb565 3))).stepOrStay ∧
    (next [.done, .emit] (waiting (inFlight .rgb565 4))).xferPtr = (inFlight .rgb565 4).params.cap ∧
    (next [.done, .emit] (waiting (inFlight .rgb565 4))).stepOrStay.nextMove ≠ .reset ∧
    (next [.xerr, .emit] (waiting (inFlight .rgb565 0))).stepOrStay.nextMove ≠ .reset :=
  ⟨rfl, by decide, by decide, by decide⟩

/-! #### Reset and the whole machine -/

theorem witness_PowerUpMeetsInvariant :
    (⟨1, 256, .one, .rgb666, 0x3FFFF⟩ : Params).wf = true ∧
    (block .two .rgb565).params = ⟨2, 2, .two, .rgb565, 0x1234⟩ ∧ (block .two .rgb565).wire = [] := by decide
theorem witness_StepKeepsInvariant :
    ({ inFlight .rgb565 0 with schedule := [.emit] } : State).Inv ∧
    step { inFlight .rgb565 0 with schedule := [.emit] } =
      .next ({ inFlight .rgb565 0 with schedule := [.emit] } : State).stepOrStay :=
  ⟨inv_of_bool (by decide), rfl⟩
theorem witness_OwnershipInvariant_step :
    (next [.emit] (waiting completing)).OwnershipInv ∧
    step (next [.emit] (waiting completing)) = .next (next [.emit] (waiting completing)).stepOrStay :=
  ⟨(inv_of_bool (s := next [.emit] (waiting completing)) (by decide)).owner, rfl⟩
theorem witness_OwnershipInvariant_engine :
    (inFlight .rgb565 0).OwnershipInv ∧ (0 : BufIdx).toNat < (inFlight .rgb565 0).params.nbuf.count ∧
    (inFlight .rgb565 0).own 0 = .engine := ⟨witness_inv_inFlight.1.owner, by decide, by decide⟩
theorem witness_OwnershipInvariant_idle :
    (red .two 2 2).OwnershipInv ∧ (red .two 2 2).engState = .idle ∧
    (1 : BufIdx).toNat < (red .two 2 2).params.nbuf.count := ⟨witness_inv_red.owner, by decide, by decide⟩

theorem witness_OwnershipInvariant_oneBuffer :
    let s : State := { block .one .rgb565 with engState := .submitted, own0 := .engine }
    s.OwnershipInv ∧ s.params.nbuf = .one ∧ s.CurBufExists ∧ s.engState = .submitted ∧
    (0 : BufIdx).toNat < s.params.nbuf.count := by
  have h : ({ block .one .rgb565 with engState := .submitted, own0 := .engine } : State).Inv :=
    inv_of_bool (by decide)
  exact ⟨h.owner, by decide, h.curBuf, by decide, by decide⟩

/-- The six transitions of 42_transfer.md R140, each a step that changes ENG_STATE. -/
theorem witness_EngineMovesOnlyByTable :
    ∀ s ∈ ([next [.host 0x98000000 true] (block .two .rgb565), next [.host 0x98000000 false] (block .two .rgb565),
        next [.done] (inFlight .rgb565 4), next [.xerr] (inFlight .rgb565 4),
        next [.emit] (waiting completing), next [.reset] faulted] : List State),
      s.PendingInv ∧ step s = .next s.stepOrStay ∧ s.stepOrStay.engState ≠ s.engState := by
  have hp : ∀ s : State, s.pending = none → s.PendingInv := fun s h w hw => by rw [h] at hw; cases hw
  simp only [List.forall_mem_cons]
  exact ⟨⟨hp _ rfl, rfl, by decide⟩, ⟨hp _ rfl, rfl, by decide⟩, ⟨hp _ rfl, rfl, by decide⟩,
    ⟨hp _ rfl, rfl, by decide⟩,
    ⟨(inv_of_bool (s := next [.emit] (waiting completing)) (by decide)).pending, rfl, by decide⟩,
    ⟨hp _ rfl, rfl, by decide⟩, by simp⟩
theorem witness_OwnersChangeOnlyAtHandOff :
    (let s := next [.host 0x98000000 true] (block .two .rgb565)
     step s = .next s.stepOrStay ∧ s.own 1 = .producer ∧ s.stepOrStay.own 1 = .engine) ∧
    (let s := next [.emit] (waiting completing)
     step s = .next s.stepOrStay ∧ s.own 0 = .engine ∧ s.stepOrStay.own 0 = .producer) :=
  ⟨⟨rfl, by decide, by decide⟩, ⟨rfl, by decide, by decide⟩⟩
theorem witness_ErrcodeRecordsRejections :
    (let s := issuing 0xA0000000 (block .two .rgb565)
     step s = .next s.stepOrStay ∧ s.stepOrStay.errcode ≠ s.errcode) ∧
    (let s := issuing 0xC0000000 { faulted with errcode := .busy }
     step s = .next s.stepOrStay ∧ s.stepOrStay.errcode ≠ s.errcode) :=
  ⟨⟨rfl, by decide⟩, ⟨rfl, by decide⟩⟩
theorem witness_CurBufAndCausePersist_curBuf :
    let s := next [.host 0x98000000 true] (block .two .rgb565)
    step s = .next s.stepOrStay ∧ s.nextMove ≠ .reset ∧ s.stepOrStay.curBuf ≠ s.curBuf :=
  ⟨rfl, by decide, by decide⟩
theorem witness_CurBufAndCausePersist_cause :
    let s := next [.emit] (waiting faulted)
    step s = .next s.stepOrStay ∧ s.nextMove ≠ .reset ∧ s.CauseInv ∧ s.faultCause ≠ .none :=
  ⟨rfl, by decide, witness_inv_faulted.cause, by decide⟩
theorem witness_WireGrowsOnlyByEmit :
    let s : State := { inFlight .rgb565 3 with schedule := [.emit] }
    step s = .next s.stepOrStay ∧ s.stepOrStay.wire ≠ s.wire := ⟨rfl, by decide⟩
theorem witness_FaultIsLeftOnlyByReset :
    let s := next [.emit] (waiting faulted)
    s.engState = .fault ∧ step s = .next s.stepOrStay ∧ s.nextMove ≠ .reset := ⟨by decide, rfl, by decide⟩
theorem witness_PendingIsOneDeep_issue :
    (let s := issuing 0xA0000000 (inFlight .rgb565 0)
     step s = .next s.stepOrStay ∧ s.pending = none ∧ s.stepOrStay.pending = some 0xA0000000) ∧
    (let s := issuing 0 (inFlight .rgb565 0)
     step s = .next s.stepOrStay ∧ s.pending = none ∧ s.stepOrStay.pending = none) :=
  ⟨⟨rfl, by decide, by decide⟩, ⟨rfl, by decide, by decide⟩⟩
theorem witness_PendingIsOneDeep_holds :
    (let s := issuing 0 (waiting (inFlight .rgb565 0))
     step s = .next s.stepOrStay ∧ s.pending = some 0xA0000000 ∧ s.nextMove = .host 0 true) ∧
    (let s := next [.emit] (waiting faulted)
     step s = .next s.stepOrStay ∧ s.pending = some 0xA0000000 ∧ s.stepOrStay.pending = none) :=
  ⟨⟨rfl, by decide, by decide⟩, ⟨rfl, by decide, by decide⟩⟩

/-! #### Transfers -/

theorem witness_WireCarriesSubmittedFrame :
    let s : State := { inFlight .rgb565 0 with schedule := [.emit, .emit] }
    s.Inv ∧ s.xferPtr = 0 ∧ ∀ m, m ≤ 2 → (s.after m).engState = .submitted := by
  refine ⟨inv_of_bool (by decide), by decide, fun m hm => ?_⟩
  match m with
  | 0 => decide
  | 1 => decide
  | 2 => decide
/-- A whole synchronous transfer of b1 is scheduled, its WAIT issued at once. -/
def transfer : State :=
  next [.host 0x98000000 true, .host 0xA8000000 false, .emit, .emit, .emit, .emit, .done, .emit] (red .two 2 2)

theorem witness_SubmitThenWaitReturnsBuffer :
    transfer.Inv ∧ transfer.engState = .idle ∧ transfer.Evaluates (.submit 1) ∧
    (transfer.after 1).engState = .submitted ∧
    (∀ m, 1 ≤ m → m ≤ 7 → (transfer.after m).engState = .submitted ∨ (transfer.after m).engState = .completing) ∧
    (transfer.after 7).nextMove ≠ .reset ∧ (transfer.after 8).engState = .idle := by
  refine ⟨inv_of_bool (by decide), by decide, ⟨0x98000000, .inl ⟨by decide, true, by decide⟩, by decide⟩, by decide,
    fun m h1 h7 => ?_, by decide, by decide⟩
  interval_cases m <;> decide
theorem witness_SynchronousTransferCompletes :
    transfer.Inv ∧ transfer.engState = .idle ∧ (1 : BufIdx).toNat < transfer.params.nbuf.count ∧
    transfer.schedule = .host (encode (.submit 1)) true :: .host (encode (.wait 1)) false ::
      (List.replicate transfer.params.cap .emit ++ .done :: [.emit]) ∧
    (next [.emit] transfer).nextMove ≠ .reset :=
  ⟨inv_of_bool (by decide), by decide, by decide, by decide, by decide⟩

/-- The last pixel is sent, a WAIT is held, and DONE comes. -/
def nearlyDone : State := next [.done, .emit] (waiting (inFlight .rgb565 4))

theorem witness_HeldWaitRetiresWhenTransportLive :
    nearlyDone.Inv ∧ nearlyDone.engState = .submitted ∧
    nearlyDone.pending = some (encode (.wait nearlyDone.curBuf)) ∧ nearlyDone.TransportLive := by
  refine ⟨inv_of_bool (by decide), by decide, by decide, fun n h hs => ?_⟩
  have hn : n = 0 ∨ n = 1 := by
    by_contra hn
    exact absurd (h 2 (by omega)) (by decide)
  rcases hn with rfl | rfl <;> exact ⟨1, by decide, .inl (by decide)⟩
theorem witness_SilentTransportHoldsWaitForever :
    let s := next ([.host 0 true, .host 0xA0000000 false] ++ [.done]) (waiting (inFlight .rgb565 0))
    s.engState = .submitted ∧ s.CurBufExists ∧ s.pending = some (encode (.wait s.curBuf)) ∧
    ∀ m ∈ ([.host 0 true, .host 0xA0000000 false] : List Move), ∃ w ready, m = .host w ready :=
  ⟨by decide, witness_inv_inFlight.1.curBuf, by decide, by simp⟩

end Sys2Proof.Tests
end

namespace Sys2Proof.Machine

/-! ### The engine's hold on a buffer -/

/-- Outside a transfer the engine holds nothing: in IDLE, and in FAULT after a ConfigurationFault. -/
theorem not_engineHolds_of_idle {s : State} (h : s.engState = .idle) : ¬ s.EngineHolds := by
  simp [State.EngineHolds, h]

theorem not_engineHolds_configFault (s : State) : ¬ (configFault s).EngineHolds := by
  simp [State.EngineHolds]

theorem engineHolds_of_submitted {s : State} (h : s.engState = .submitted) : s.EngineHolds := .inl h

theorem engineHolds_of_completing {s : State} (h : s.engState = .completing) : s.EngineHolds := .inr (.inl h)

theorem engineHolds_enterFault_transfer (s : State) : (enterFault .transfer s).EngineHolds :=
  .inr (.inr ⟨rfl, rfl⟩)

/-- EngineHolds reads ENG_STATE and FAULT_CAUSE only. -/
theorem engineHolds_congr {s t : State} (he : t.engState = s.engState) (hc : t.faultCause = s.faultCause) :
    t.EngineHolds ↔ s.EngineHolds := by
  rw [State.EngineHolds, State.EngineHolds, he, hc]

/-! ### Which commands touch the engine -/

/-- The engine is as it was, but for the three outcomes of SUBMIT and WAIT that move it (10_state.md R26, R29). -/
theorem commandEffect_engine {i : Instr} {s t : State} (h : CommandEffect s i t) :
    SameEngine s t ∨
    (∃ k, i = .submit k ∧ k.toNat < s.params.nbuf.count ∧ s.engState = .idle ∧
      (t = retire (handOff k s) ∨ t = configFault s)) ∨
    (i = .wait s.curBuf ∧ s.engState = .completing ∧ t = retire (reclaim s.curBuf s)) := by
  cases h with
  | submitted k hk hidle hready => exact .inr (.inl ⟨k, rfl, hk, hidle, .inl rfl⟩)
  | configFault k hk hidle hready => exact .inr (.inl ⟨k, rfl, hk, hidle, .inr rfl⟩)
  | reclaimed hk hcomp => exact .inr (.inr ⟨rfl, hcomp, rfl⟩)
  | fbwr => exact .inl (by simp [SameEngine, fbWrite])
  | fbwrxy => exact .inl (by simp [SameEngine, fbWrite])
  | _ => exact .inl ⟨rfl, rfl, rfl, fun _ => rfl, rfl⟩

/-! ### The ownership invariant (10_state.md R30) -/

/-- The invariant reads NBUF, the owners, CUR_BUF and whether the engine holds a buffer. -/
theorem ownershipInv_congr {s t : State} (hp : t.params = s.params) (hown : ∀ k, t.own k = s.own k)
    (hcur : t.curBuf = s.curBuf) (hholds : t.EngineHolds ↔ s.EngineHolds) (h : s.OwnershipInv) :
    t.OwnershipInv := by
  intro k hk
  rw [hown, hcur, hholds]
  exact h k (hp ▸ hk)

/-- With every buffer the producer's and nothing held, the invariant holds. -/
theorem ownershipInv_of_released {s : State}
    (hown : ∀ k : BufIdx, k.toNat < s.params.nbuf.count → s.own k = .producer)
    (hn : ¬ s.EngineHolds) : s.OwnershipInv := fun k hk => by
  simp [hown k hk, hn]

/-- Where the engine holds nothing, every buffer is the producer's. -/
theorem own_producer_of_ownershipInv {s : State} (h : s.OwnershipInv) (hn : ¬ s.EngineHolds) {k : BufIdx}
    (hk : k.toNat < s.params.nbuf.count) : s.own k = .producer := by
  cases ho : s.own k with
  | producer => rfl
  | engine => exact absurd ((h k hk).mp ho).2 hn

theorem ownershipInv_powerUp (p : Params) : (State.powerUp p).OwnershipInv :=
  ownershipInv_of_released (fun k _ => by unfold State.own; split <;> rfl) (not_engineHolds_of_idle rfl)

theorem ownershipInv_resetStep (s : State) : (resetStep s).OwnershipInv :=
  ownershipInv_of_released (fun k _ => own_resetStep s k) (not_engineHolds_of_idle rfl)

/-- The hand-off from IDLE gives the engine the buffer submitted, and it had none before (42_transfer.md R145). -/
theorem ownershipInv_handOff {s : State} (h : s.OwnershipInv) (hidle : s.engState = .idle) (k : BufIdx) :
    (handOff k s).OwnershipInv := by
  intro j hj
  have hprod : s.own j = .producer :=
    own_producer_of_ownershipInv h (not_engineHolds_of_idle hidle) (by simpa [handOff] using hj)
  have hholds : (handOff k s).EngineHolds := engineHolds_of_submitted rfl
  have hcur : (handOff k s).curBuf = k := rfl
  by_cases hjk : j = k <;> simp [own_handOff, hjk, hprod, hholds, hcur]

/-- The ConfigurationFault leaves every buffer with the producer (42_transfer.md R147). -/
theorem ownershipInv_configFault {s : State} (h : s.OwnershipInv) (hidle : s.engState = .idle) :
    (configFault s).OwnershipInv :=
  ownershipInv_of_released (fun _ hk => own_producer_of_ownershipInv h (not_engineHolds_of_idle hidle) hk)
    (not_engineHolds_configFault s)

/-- The reclaim takes back the one buffer the engine could own (42_transfer.md R155). -/
theorem ownershipInv_reclaim {s : State} (h : s.OwnershipInv) : (reclaim s.curBuf s).OwnershipInv := by
  refine ownershipInv_of_released (fun j hj => ?_) (not_engineHolds_of_idle rfl)
  rw [own_reclaim]
  split
  · rfl
  · rename_i hne
    cases ho : s.own j with
    | producer => rfl
    | engine => exact absurd ((h j (by simpa [reclaim] using hj)).mp ho).1 hne

/-- Every command keeps the ownership invariant. -/
theorem commandEffect_ownershipInv {i : Instr} {s t : State} (h : s.OwnershipInv) (he : CommandEffect s i t) :
    t.OwnershipInv := by
  have hp : t.params = s.params := (commandEffect_frame he).2.1
  rcases commandEffect_engine he with ⟨heng, hcur, hcause, hown, -⟩ | ⟨k, -, -, hidle, rfl | rfl⟩ | ⟨-, -, rfl⟩
  · exact ownershipInv_congr hp hown hcur (engineHolds_congr heng hcause) h
  · exact ownershipInv_handOff h hidle k
  · exact ownershipInv_configFault h hidle
  · exact ownershipInv_reclaim h

/-- Presenting a word keeps the ownership invariant. -/
theorem presents_ownershipInv {s u : State} {w : Word} (h : s.OwnershipInv) (hw : Presents s w u) :
    u.OwnershipInv := by
  obtain ⟨heng, hcur, hcause, -, -, -, -, -, hp, hown, -⟩ := presents_frame hw
  exact ownershipInv_congr hp hown hcur (engineHolds_congr heng hcause) h

/-- A rejection touches neither an owner nor the engine (60_exceptions.md R181). -/
theorem rejected_ownershipInv {s : State} (c : ErrCode) (h : s.OwnershipInv) : (rejected c s).OwnershipInv :=
  ownershipInv_congr rfl (fun _ => rfl) rfl Iff.rfl h

theorem advance_ownershipInv {s : State} (h : s.OwnershipInv) : s.advance.OwnershipInv :=
  ownershipInv_congr (by simp) (by simp) (by simp) (engineHolds_congr (by simp) (by simp)) h

/-- Every step keeps the ownership invariant. DONE and XERR come in SUBMITTED only, and the engine keeps its buffer
through both (42_transfer.md R161, R162). -/
theorem step_ownershipInv {s t : State} (h : s.OwnershipInv) (hs : step s = .next t) : t.OwnershipInv := by
  have ha : s.advance.OwnershipInv := advance_ownershipInv h
  cases step_cases hs with
  | command w i u _ hw hd he => exact commandEffect_ownershipInv (presents_ownershipInv h hw) he
  | illegal w u hw hd => exact rejected_ownershipInv .illegal (presents_ownershipInv h hw)
  | passed => exact ha
  | emitted => exact ha
  | completed hm hq hsub hx =>
    have hheld : s.advance.EngineHolds := engineHolds_of_submitted (by simpa using hsub)
    exact ownershipInv_congr (s := s.advance) rfl (fun _ => rfl) rfl
      (iff_of_true (engineHolds_of_completing rfl) hheld) ha
  | failed hm hq hsub =>
    have hheld : s.advance.EngineHolds := engineHolds_of_submitted (by simpa using hsub)
    exact ownershipInv_congr (s := s.advance) rfl (fun _ => rfl) rfl
      (iff_of_true (engineHolds_enterFault_transfer _) hheld) ha
  | reset => exact ownershipInv_resetStep s.advance

/-! ### What the ownership invariant says -/

theorem engine_owned_unique {s : State} (h : s.OwnershipInv) {j k : BufIdx}
    (hj : j.toNat < s.params.nbuf.count) (hk : k.toNat < s.params.nbuf.count)
    (hoj : s.own j = .engine) (hok : s.own k = .engine) : j = k :=
  ((h j hj).mp hoj).1.trans ((h k hk).mp hok).1.symm

/-- With NBUF = 1 there is one buffer index. -/
theorem bufIdx_eq_of_nbuf_one {p : Params} (hone : p.nbuf = .one) {j k : BufIdx}
    (hj : j.toNat < p.nbuf.count) (hk : k.toNat < p.nbuf.count) : j = k := by
  rw [hone] at hj hk
  exact BitVec.eq_of_toNat_eq (by simp only [BufCount.count] at hj hk; omega)

theorem own_engine_of_nbuf_one {s : State} (h : s.OwnershipInv) (hone : s.params.nbuf = .one)
    (hcur : s.CurBufExists) (hholds : s.EngineHolds) {k : BufIdx} (hk : k.toNat < s.params.nbuf.count) :
    s.own k = .engine :=
  (h k hk).mpr ⟨bufIdx_eq_of_nbuf_one hone hk hcur, hholds⟩

/-- Settles O41: the invariant is inductive by itself, because a hand-off starts in IDLE, where no buffer is the
engine's, and a reclaim takes back the only one that is. -/
theorem ownershipInvariant : Obligations.OwnershipInvariant := by
  refine ⟨ownershipInv_powerUp, fun _ _ => step_ownershipInv, fun s h => ⟨?_, ?_, ?_⟩⟩
  · exact fun _ _ => engine_owned_unique h
  · exact fun hidle _ => own_producer_of_ownershipInv h (not_engineHolds_of_idle hidle)
  · exact fun hone hcur hflight _ =>
      own_engine_of_nbuf_one h hone hcur (hflight.elim engineHolds_of_submitted engineHolds_of_completing)

end Sys2Proof.Machine

namespace Sys2Proof

/-! ### A line that stands for other lines (30_encoding.md R88) -/

/-- The assembler reads a line's operand ranges and its expansion only. -/
theorem assemble_congr {f g : PixelFormat} {l m : Line} (hwf : l.wellFormed = m.wellFormed)
    (hex : l.expand f = m.expand g) : assemble f l = assemble g m := by
  unfold assemble
  rw [hwf, hex]

/-- A line with the ranges and the expansions of two lines assembles to their words in order, and to nothing where
either does not assemble. -/
theorem assemble_of_append {f : PixelFormat} {l a b : Line}
    (hwf : l.wellFormed = (a.wellFormed && b.wellFormed)) (hex : l.expand f = a.expand f ++ b.expand f) :
    assemble f l = (assemble f a).bind fun ws => (assemble f b).map fun vs => ws ++ vs := by
  unfold assemble
  rw [hwf, hex]
  cases a.wellFormed <;> cases b.wellFormed <;> simp

/-- Settles O6: each pseudo-instruction has the operand ranges and the expansion of its parts. -/
theorem pseudoInstructionsExpand : Obligations.PseudoInstructionsExpand := by
  intro f k x y o r g b
  refine ⟨assemble_congr rfl rfl, assemble_congr rfl rfl, assemble_of_append ?put rfl,
    assemble_of_append ?puto rfl, assemble_of_append ?xfer rfl, assemble_congr rfl rfl⟩
  case put => simp only [Line.wellFormed]; ac_rfl
  case puto => simp only [Line.wellFormed]; ac_rfl
  case xfer => exact (Bool.and_self _).symm

/-! ### Words that decode to no command (30_encoding.md R80 to R82) -/

/-- The table of 30_encoding.md R80 from opcode to format; the reserved opcodes have none of their own. -/
def opcodeFormat (op : BitVec 4) : Format :=
  match op.toNat with
  | 0x1 | 0x2 => .P
  | 0x3 => .S16
  | 0x4 => .S18
  | 0x5 | 0x6 => .M
  | 0x7 | 0x8 => .X
  | 0x9 | 0xA => .T
  | _ => .N

theorem opcodeFormat_opcodeOf (i : Instr) : opcodeFormat (opcodeOf i) = formatOf i := by
  cases i <;> rfl

theorem opcodeOf_toNat_lt (i : Instr) : (opcodeOf i).toNat < 0xD := by
  cases i <;> simp [opcodeOf]

/-- One arm of the decoder: the word has the opcode of the command it gives, and zeros in its reserved field. -/
theorem fields_of_arm {w : Word} {n : Nat} {f : Format} {i j : Instr} (hn : (opField w).toNat = n)
    (h : checkReserved f w j = .command i) (hop : opcodeOf j = BitVec.ofNat 4 n) (hf : formatOf j = f) :
    opField w = opcodeOf i ∧ reservedBits (formatOf i) w = 0 := by
  obtain ⟨hr, rfl⟩ := checkReserved_command h
  exact ⟨(opField_of_toNat hn).trans hop.symm, hf ▸ hr⟩

/-- A word that decodes to a command has that command's opcode, and zeros in its format's reserved field. -/
theorem fields_of_decode_command {w : Word} {i : Instr} (h : decode w = .command i) :
    opField w = opcodeOf i ∧ reservedBits (formatOf i) w = 0 := by
  unfold decode at h
  split at h
  case h_14 => cases h
  all_goals
    rename_i hn
    exact fields_of_arm hn h rfl rfl

theorem decode_ne_command_of_reserved_opcode {w : Word} (hop : 0xD ≤ (opField w).toNat) (i : Instr) :
    decode w ≠ .command i := fun hd => by
  have hlt := opcodeOf_toNat_lt i
  rw [← (fields_of_decode_command hd).1] at hlt
  omega

theorem decode_ne_command_of_reservedBits {w : Word} (hr : reservedBits (opcodeFormat (opField w)) w ≠ 0)
    (i : Instr) : decode w ≠ .command i := fun hd => by
  obtain ⟨hop, hz⟩ := fields_of_decode_command hd
  rw [hop, opcodeFormat_opcodeOf] at hr
  exact hr hz

end Sys2Proof

namespace Sys2Proof.Machine

/-! ### The rejection ILLEGAL -/

/-- A rejection changes ERRCODE and PENDING only (60_exceptions.md R181). -/
theorem onlyErrcode_rejected (c : ErrCode) (s : State) : OnlyErrcode c s (rejected c s) :=
  ⟨rfl, rfl, ⟨rfl, rfl⟩, ⟨rfl, rfl, rfl, fun _ => rfl, rfl⟩, fun _ _ => rfl, rfl, ⟨rfl, rfl, rfl, rfl⟩⟩

theorem rejected_evalWord {w : Word} (s : State) (hd : ∀ i, decode w ≠ .command i) :
    Rejected (evalWord w s) .illegal s :=
  ⟨rejected .illegal s, evalWord_illegal hd, onlyErrcode_rejected .illegal s⟩

/-- A mask that tests the reserved field of its opcode's format finds only words that are rejected ILLEGAL. -/
theorem illegalUnder_of_mask {op : BitVec 4} {mask : Word}
    (hmask : ∀ {w : Word}, w &&& mask = 0 ↔ reservedBits (opcodeFormat op) w = 0) : IllegalUnder op mask := by
  rintro w s rfl hw
  exact rejected_evalWord s (decode_ne_command_of_reservedBits (mt hmask.mpr hw))

/-- Settles O9: such a word decodes to no command, so evaluating it is the shared rejection. -/
theorem illegalWordsOnlySetErrcode : Obligations.IllegalWordsOnlySetErrcode :=
  ⟨fun _ s hop => rejected_evalWord s (decode_ne_command_of_reserved_opcode hop), rfl,
    illegalUnder_of_mask mask_N, illegalUnder_of_mask mask_P, illegalUnder_of_mask mask_P,
    illegalUnder_of_mask mask_S16, illegalUnder_of_mask mask_S18, illegalUnder_of_mask mask_M,
    illegalUnder_of_mask mask_M, illegalUnder_of_mask mask_X, illegalUnder_of_mask mask_X,
    illegalUnder_of_mask mask_T, illegalUnder_of_mask mask_T, illegalUnder_of_mask mask_N,
    illegalUnder_of_mask mask_N⟩

end Sys2Proof.Machine

namespace Sys2Proof

/-! ### Decoding an encoded command (30_encoding.md R72 to R85) -/

/-- The encoder's word has the command's opcode, zeros in its reserved field, and its operands in their fields, so
the decoder's arm for that opcode gives the command back. -/
theorem decode_encode (i : Instr) : decode (encode i) = .command i := by
  cases i <;> simp [encode, decode, checkReserved]

end Sys2Proof

namespace Sys2Proof.Machine

/-- The word the encoder gives a command runs that command. -/
theorem evalWord_encode (i : Instr) (s : State) : evalWord (encode i) s = exec i s :=
  evalWord_command s (decode_encode i)

/-! ### What every codec command does (40_codec.md R100) -/

/-- Writing RESULT and retiring touches nothing else. -/
theorem onlyResult_retire_writeResult (v : Word) (kd : Kind) (s : State) :
    OnlyResult s (retire (writeResult v kd s)) :=
  ⟨rfl, rfl, ⟨rfl, rfl, rfl, fun _ => rfl, rfl⟩, fun _ _ => rfl, rfl, ⟨rfl, rfl, rfl, rfl⟩⟩

/-- What each codec command writes to RESULT, and with which kind. -/
theorem exec_pack565 (r g b : Byte) (s : State) :
    exec (.pack565 r g b) s = .next (retire (writeResult ((pack565 r g b).setWidth 32) .pix565 s)) := rfl

theorem exec_pack666 (r g b : Byte) (s : State) :
    exec (.pack666 r g b) s = .next (retire (writeResult ((pack666 r g b).setWidth 32) .pix666 s)) := rfl

theorem exec_split565 (p : BitVec 16) (s : State) :
    exec (.split565 p) s = .next (retire (writeResult (split565 p) .wire s)) := rfl

theorem exec_split666 (p : BitVec 18) (s : State) :
    exec (.split666 p) s = .next (retire (writeResult (split666 p) .wire s)) := rfl

/-- A command that writes the value `v` with the kind `kd` in every state. -/
theorem exists_onlyResult_of_writes {i : Instr} {v : Word} {kd : Kind}
    (hw : ∀ s, exec i s = .next (retire (writeResult v kd s))) (s : State) :
    ∃ t, exec i s = .next t ∧ t.result = v ∧ t.resultKind = kd ∧ OnlyResult s t :=
  ⟨_, hw s, rfl, rfl, onlyResult_retire_writeResult v kd s⟩

/-- Settles O19: the value each codec command writes is a function of its operands, and its kind is fixed. -/
theorem codecReadsOnlyOperands : Obligations.CodecReadsOnlyOperands := by
  refine ⟨fun i hi => ?_, illegalUnder_of_mask mask_P, illegalUnder_of_mask mask_P,
    illegalUnder_of_mask mask_S16, illegalUnder_of_mask mask_S18⟩
  cases i with
  | pack565 r g b => exact ⟨_, _, exists_onlyResult_of_writes (exec_pack565 r g b)⟩
  | pack666 r g b => exact ⟨_, _, exists_onlyResult_of_writes (exec_pack666 r g b)⟩
  | split565 p => exact ⟨_, _, exists_onlyResult_of_writes (exec_split565 p)⟩
  | split666 p => exact ⟨_, _, exists_onlyResult_of_writes (exec_split666 p)⟩
  | _ => exact hi.elim

/-! ### Packing (40_codec.md R101 to R105) -/

/-- A channel truncated and shifted into its field loses no further bit when the pixel is widened to a word, if the
pixel has room for the kept bits. -/
theorem setWidth_packedField {w j k : Nat} (c : Byte) (hfit : 8 + k ≤ w + j) :
    ((c >>> j).setWidth w <<< k).setWidth 32 = (c >>> j).setWidth 32 <<< k := by
  apply BitVec.eq_of_getLsbD_eq
  intro i hi
  by_cases hik : i < k
  · simp [hik]
  cases hbit : c.getLsbD (j + (i - k)) with
  | false => simp [hbit]
  | true =>
    have hkept : j + (i - k) < 8 := BitVec.lt_of_getLsbD hbit
    simp [hbit, hi, hik, show i < w by omega, show j + (i - k) < 32 by omega]

theorem setWidth_pack565 (r g b : Byte) : (pack565 r g b).setWidth 32 =
    ((r >>> 3).setWidth 32 <<< 11) ||| ((g >>> 2).setWidth 32 <<< 5) ||| (b >>> 3).setWidth 32 := by
  rw [pack565, BitVec.setWidth_or, BitVec.setWidth_or, setWidth_packedField r (by decide),
    setWidth_packedField g (by decide), BitVec.setWidth_setWidth (by decide)]

theorem setWidth_pack666 (r g b : Byte) : (pack666 r g b).setWidth 32 =
    ((r >>> 2).setWidth 32 <<< 12) ||| ((g >>> 2).setWidth 32 <<< 6) ||| (b >>> 2).setWidth 32 := by
  rw [pack666, BitVec.setWidth_or, BitVec.setWidth_or, setWidth_packedField r (by decide),
    setWidth_packedField g (by decide), BitVec.setWidth_setWidth (by decide)]

/-- Settles O11: the 16-bit pixel, widened to a word, is the OR of the fields taken at 32 bits. -/
theorem pack565Command : Obligations.Pack565Command :=
  ⟨fun r g b s => ⟨evalWord_encode (.pack565 r g b) s, _, exec_pack565 r g b s, setWidth_pack565 r g b, rfl,
    onlyResult_retire_writeResult _ _ s⟩, illegalUnder_of_mask mask_P⟩

/-- Settles O12: the 18-bit pixel, widened to a word, is the OR of the fields taken at 32 bits. -/
theorem pack666Command : Obligations.Pack666Command :=
  ⟨fun r g b s => ⟨evalWord_encode (.pack666 r g b) s, _, exec_pack666 r g b s, setWidth_pack666 r g b, rfl,
    onlyResult_retire_writeResult _ _ s⟩, illegalUnder_of_mask mask_P⟩

/-- A mask that is all ones above the shift does not change what the shift keeps. -/
theorem ushiftRight_and_of_mask {c m : Byte} {k : Nat} (hm : m >>> k = BitVec.allOnes 8 >>> k) :
    (c &&& m) >>> k = c >>> k := by
  rw [BitVec.ushiftRight_and_distrib, hm, ← BitVec.ushiftRight_and_distrib, BitVec.and_allOnes]

theorem pack565_mask (r g b : Byte) : pack565 (r &&& 0xF8) (g &&& 0xFC) (b &&& 0xF8) = pack565 r g b := by
  have h3 {c : Byte} : (c &&& 0xF8) >>> 3 = c >>> 3 := ushiftRight_and_of_mask (by decide)
  have h2 {c : Byte} : (c &&& 0xFC) >>> 2 = c >>> 2 := ushiftRight_and_of_mask (by decide)
  rw [pack565, pack565, h3, h2, h3]

theorem pack666_mask (r g b : Byte) : pack666 (r &&& 0xFC) (g &&& 0xFC) (b &&& 0xFC) = pack666 r g b := by
  have h2 {c : Byte} : (c &&& 0xFC) >>> 2 = c >>> 2 := ushiftRight_and_of_mask (by decide)
  rw [pack666, pack666, h2, h2, h2]

/-- Settles O16: each mask clears only bits that the truncating shift drops. -/
theorem packIgnoresLowChannelBits : Obligations.PackIgnoresLowChannelBits := by
  intro r g b s
  constructor
  · rw [exec_pack565, exec_pack565, pack565_mask]
  · rw [exec_pack666, exec_pack666, pack666_mask]

/-! ### Splitting (40_codec.md R107 to R110) -/

/-- The two bytes of a 5-6-5 pixel, the high one first, are the pixel. -/
theorem hiByte565_append_loByte565 (p : BitVec 16) : hiByte565 p ++ loByte565 p = p :=
  (BitVec.extractLsb'_append_extractLsb'_eq_extractLsb' (by decide)).trans BitVec.extractLsb'_eq_self

/-- Above its own width a value reads as zero. -/
theorem extractLsb'_eq_zero_of_le {n start : Nat} (len : Nat) (x : BitVec n) (h : n ≤ start) :
    x.extractLsb' start len = 0 := by
  apply BitVec.eq_of_getLsbD_eq
  intro i hi
  simp [BitVec.getLsbD_of_ge x (start + i) (by omega)]

/-- A field of the word SPLIT565 writes is that field of the pixel. -/
theorem extractLsb'_split565 {start len : Nat} (p : BitVec 16) (h : start + len ≤ 32) :
    (split565 p).extractLsb' start len = p.extractLsb' start len := by
  rw [split565, hiByte565_append_loByte565, BitVec.extractLsb'_setWidth_of_le h]

/-- A channel byte of a 6-6-6 pixel: the channel in [7:2], zeros in [1:0]. -/
theorem channelByte_bits (c : BitVec 6) :
    (c ++ 0#2).extractLsb' 2 6 = c ∧ (c ++ 0#2).extractLsb' 0 2 = 0 := by
  constructor
  · rw [BitVec.extractLsb'_append_eq_of_le (by decide)]; exact BitVec.extractLsb'_eq_self
  · rw [BitVec.extractLsb'_append_eq_of_add_le (by decide)]; exact BitVec.extractLsb'_eq_self

/-- Where the word SPLIT666 writes holds each of the three bytes, and what is above them. -/
theorem extractLsb'_split666_red {start len : Nat} (p : BitVec 18) (h : start + len ≤ 8) :
    (split666 p).extractLsb' (16 + start) len = (redByte666 p).extractLsb' start len := by
  rw [split666, BitVec.extractLsb'_setWidth_of_le (by omega), BitVec.extractLsb'_append_eq_of_le (by omega),
    BitVec.extractLsb'_append_eq_of_le (by omega)]
  rw [Nat.sub_sub, Nat.add_sub_cancel_left]

theorem extractLsb'_split666_green {start len : Nat} (p : BitVec 18) (h : start + len ≤ 8) :
    (split666 p).extractLsb' (8 + start) len = (greenByte666 p).extractLsb' start len := by
  rw [split666, BitVec.extractLsb'_setWidth_of_le (by omega), BitVec.extractLsb'_append_eq_of_le (by omega),
    BitVec.extractLsb'_append_eq_of_add_le (by omega), Nat.add_sub_cancel_left]

theorem extractLsb'_split666_blue {start len : Nat} (p : BitVec 18) (h : start + len ≤ 8) :
    (split666 p).extractLsb' start len = (blueByte666 p).extractLsb' start len := by
  rw [split666, BitVec.extractLsb'_setWidth_of_le (by omega), BitVec.extractLsb'_append_eq_of_add_le h]

theorem extractLsb'_split666_top (p : BitVec 18) : (split666 p).extractLsb' 24 8 = 0 := by
  rw [split666, BitVec.extractLsb'_setWidth_of_le (by decide), extractLsb'_eq_zero_of_le _ _ (by decide)]

/-- Settles O13: the word is the pixel, zero-extended. -/
theorem split565Command : Obligations.Split565Command :=
  ⟨fun p s => ⟨evalWord_encode (.split565 p) s, _, exec_split565 p s, extractLsb'_split565 p (by decide),
    extractLsb'_split565 p (by decide),
    (extractLsb'_split565 p (by decide)).trans (extractLsb'_eq_zero_of_le _ p (by decide)), rfl,
    onlyResult_retire_writeResult _ _ s⟩, illegalUnder_of_mask mask_S16⟩

/-- Settles O14: the word is the three channel bytes, zero-extended. -/
theorem split666Command : Obligations.Split666Command := by
  refine ⟨fun p s => ⟨evalWord_encode (.split666 p) s, _, exec_split666 p s, ?_⟩, illegalUnder_of_mask mask_S18⟩
  obtain ⟨hred, hred0⟩ := channelByte_bits (p.extractLsb' 12 6)
  obtain ⟨hgreen, hgreen0⟩ := channelByte_bits (p.extractLsb' 6 6)
  obtain ⟨hblue, hblue0⟩ := channelByte_bits (p.extractLsb' 0 6)
  exact ⟨(extractLsb'_split666_red p (by decide)).trans hred, (extractLsb'_split666_red p (by decide)).trans hred0,
    (extractLsb'_split666_green p (by decide)).trans hgreen, (extractLsb'_split666_green p (by decide)).trans hgreen0,
    (extractLsb'_split666_blue p (by decide)).trans hblue, (extractLsb'_split666_blue p (by decide)).trans hblue0,
    extractLsb'_split666_top p, rfl, onlyResult_retire_writeResult _ _ s⟩

end Sys2Proof.Machine

namespace Sys2Proof.Machine

/-! ### The checks of an access, one rejection each (41_framebuffer.md R120) -/

theorem readChecks_bufidx {k : BufIdx} {b : Bool} {s : State} (hk : s.params.nbuf.count ≤ k.toNat) :
    readChecks k b s = some .bufidx := by
  simp [readChecks, bufferExists, hk]

theorem readChecks_bounds {k : BufIdx} {b : Bool} {s : State} (hk : k.toNat < s.params.nbuf.count)
    (hb : b = false) : readChecks k b s = some .bounds := by
  simp [readChecks, bufferExists, hk, hb]

theorem readChecks_ownership {k : BufIdx} {b : Bool} {s : State} (hk : k.toNat < s.params.nbuf.count)
    (hb : b = true) (hown : s.own k = .engine) : readChecks k b s = some .ownership := by
  simp [readChecks, bufferExists, hk, hb, hown]

/-- A write makes the checks of a read first. -/
theorem writeChecks_of_readChecks {k : BufIdx} {b : Bool} {s : State} {c : ErrCode}
    (h : readChecks k b s = some c) : writeChecks k b s = some c := by
  simp [writeChecks, h]

theorem writeChecks_kind {k : BufIdx} {b : Bool} {s : State} (h : readChecks k b s = none)
    (hkind : ¬ s.HoldsPixel) : writeChecks k b s = some .kind := by
  simp [writeChecks, h, mt holdsPixel_iff.mpr hkind]

theorem offsetInBounds_false {o : BitVec 16} {s : State} :
    offsetInBounds o s = false ↔ s.params.cap ≤ o.toNat := by
  simp [offsetInBounds]

theorem coordInBounds_false {x y : BitVec 8} {s : State} :
    coordInBounds x y s = false ↔ s.params.width ≤ x.toNat ∨ s.params.height ≤ y.toNat := by
  simp [coordInBounds, or_iff_not_imp_left]

/-! ### Reads: FBRD and FBRDXY -/

/-- A check that fails rejects the command, whatever its effect would be (60_exceptions.md R186). -/
theorem rejected_of_check {c : Option ErrCode} {d : ErrCode} (effect : State → Answer) (s : State)
    (h : c = some d) : Rejected (unlessRejected c effect s) d s := by
  subst h
  exact ⟨rejected d s, rfl, onlyErrcode_rejected d s⟩

/-- The state after FB[k][o] is read into RESULT. -/
def loaded (k : BufIdx) (o : Nat) (s : State) : State :=
  retire (writeResult ((s.pixelAt k o).setWidth 32) (pixKind s) s)

theorem exec_fbrd_loads {k : BufIdx} {o : BitVec 16} {s : State} (hk : k.toNat < s.params.nbuf.count)
    (ho : o.toNat < s.params.cap) (hown : s.own k = .producer) :
    exec (.fbrd k o) s = .next (loaded k o.toNat s) := by
  show execFbrd k o s = _
  rw [execFbrd, readChecks_none.mpr ⟨hk, offsetInBounds_true.mpr ho, hown⟩]
  rfl

theorem exec_fbrdxy_loads {k : BufIdx} {x y : BitVec 8} {s : State} (hk : k.toNat < s.params.nbuf.count)
    (hx : x.toNat < s.params.width) (hy : y.toNat < s.params.height) (hown : s.own k = .producer) :
    exec (.fbrdxy k x y) s = .next (loaded k (coordOffset x y s) s) := by
  show execFbrdxy k x y s = _
  rw [execFbrdxy, readChecks_none.mpr ⟨hk, coordInBounds_true.mpr ⟨hx, hy⟩, hown⟩]
  rfl

/-- A read gives the element as a number, of kind PIXKIND, and touches nothing else (41_framebuffer.md R126). -/
theorem loaded_spec (k : BufIdx) (o : Nat) (s : State) :
    (loaded k o s).result.toNat = (s.pixelAt k o).toNat ∧ (loaded k o s).HoldsPixel ∧
      OnlyResult s (loaded k o s) :=
  ⟨BitVec.toNat_setWidth_of_le (by decide), holdsPixel_iff.mpr rfl, onlyResult_retire_writeResult _ _ s⟩

/-- Settles O21: each rejection is the first check that fails, and a read that passes them all loads the element. -/
theorem fbrdCommand : Obligations.FbrdCommand := by
  refine ⟨fun k o s => ⟨evalWord_encode (.fbrd k o) s, fun hk => ?bufidx, fun hk ho => ?bounds,
    fun hk ho hown => ?ownership, fun hk ho hown => ⟨_, exec_fbrd_loads hk ho hown, loaded_spec k _ s⟩⟩,
    illegalUnder_of_mask mask_M⟩
  case bufidx => exact rejected_of_check _ s (readChecks_bufidx hk)
  case bounds => exact rejected_of_check _ s (readChecks_bounds hk (offsetInBounds_false.mpr ho))
  case ownership => exact rejected_of_check _ s (readChecks_ownership hk (offsetInBounds_true.mpr ho) hown)

/-- Settles O23: as FBRD, with each coordinate checked on its own. -/
theorem fbrdxyCommand : Obligations.FbrdxyCommand := by
  refine ⟨fun k x y s => ⟨evalWord_encode (.fbrdxy k x y) s, fun hk => ?bufidx, fun hk hxy => ?bounds,
    fun hk hx hy hown => ?ownership,
    fun hk hx hy hown => ⟨_, exec_fbrdxy_loads hk hx hy hown, loaded_spec k _ s⟩⟩, illegalUnder_of_mask mask_X⟩
  case bufidx => exact rejected_of_check _ s (readChecks_bufidx hk)
  case bounds => exact rejected_of_check _ s (readChecks_bounds hk (coordInBounds_false.mpr hxy))
  case ownership => exact rejected_of_check _ s (readChecks_ownership hk (coordInBounds_true.mpr ⟨hx, hy⟩) hown)

/-! ### Writes: FBWR and FBWRXY -/

/-- The state after RESULT's pixel is stored in FB[k][o]. -/
def stored (k : BufIdx) (o : Nat) (s : State) : State := retire (fbWrite k o (resultPixel s) s)

theorem exec_fbwr_stores {k : BufIdx} {o : BitVec 16} {s : State} (hk : k.toNat < s.params.nbuf.count)
    (ho : o.toNat < s.params.cap) (hown : s.own k = .producer) (hpix : s.HoldsPixel) :
    exec (.fbwr k o) s = .next (stored k o.toNat s) := by
  show execFbwr k o s = _
  rw [execFbwr, writeChecks_none.mpr
    ⟨readChecks_none.mpr ⟨hk, offsetInBounds_true.mpr ho, hown⟩, holdsPixel_iff.mp hpix⟩]
  rfl

theorem exec_fbwrxy_stores {k : BufIdx} {x y : BitVec 8} {s : State} (hk : k.toNat < s.params.nbuf.count)
    (hx : x.toNat < s.params.width) (hy : y.toNat < s.params.height) (hown : s.own k = .producer)
    (hpix : s.HoldsPixel) : exec (.fbwrxy k x y) s = .next (stored k (coordOffset x y s) s) := by
  show execFbwrxy k x y s = _
  rw [execFbwrxy, writeChecks_none.mpr
    ⟨readChecks_none.mpr ⟨hk, coordInBounds_true.mpr ⟨hx, hy⟩, hown⟩, holdsPixel_iff.mp hpix⟩]
  rfl

theorem pixelAt_stored {s : State} (h : s.BuffersInv) (k : BufIdx) (o : Nat) (j : BufIdx) (a : Nat) :
    (stored k o s).pixelAt j a = if j = k ∧ a = o then resultPixel s else s.pixelAt j a :=
  pixelAt_fbWrite (h k).1 o (resultPixel s) j a

theorem stored_toNat {s : State} (h : s.BuffersInv) (k : BufIdx) (o : Nat) :
    ((stored k o s).pixelAt k o).toNat = s.result.toNat % 2 ^ s.params.pixelBits := by
  rw [pixelAt_stored h, if_pos ⟨rfl, rfl⟩, resultPixel_toNat]

theorem sameBuffersBut_stored {s : State} (h : s.BuffersInv) (k : BufIdx) (o : Nat) :
    SameBuffersBut k o s (stored k o s) := by
  intro j a
  rw [pixelAt_stored h, or_iff_not_imp_left]
  exact fun hne => if_neg hne

/-- A store touches nothing outside the buffers but PENDING (41_framebuffer.md R125). -/
theorem stored_frame (k : BufIdx) (o : Nat) (s : State) :
    (stored k o s).pending = none ∧ SameResult s (stored k o s) ∧ (stored k o s).errcode = s.errcode ∧
      SameEngine s (stored k o s) ∧ (stored k o s).wire = s.wire ∧ SameEnvironment s (stored k o s) := by
  simp [stored, fbWrite, SameResult, SameEngine, SameEnvironment]

/-- Settles O20: each rejection is the first check that fails, and a write that passes them all stores the pixel. -/
theorem fbwrCommand : Obligations.FbwrCommand := by
  refine ⟨fun k o s => ⟨evalWord_encode (.fbwr k o) s, fun hk => ?bufidx, fun hk ho => ?bounds,
    fun hk ho hown => ?ownership, fun hk ho hown hpix => ?kind,
    fun hk ho hown hpix hbuf => ⟨_, exec_fbwr_stores hk ho hown hpix, stored_toNat hbuf k _,
      sameBuffersBut_stored hbuf k _, stored_frame k _ s⟩⟩, illegalUnder_of_mask mask_M⟩
  case bufidx => exact rejected_of_check _ s (writeChecks_of_readChecks (readChecks_bufidx hk))
  case bounds =>
    exact rejected_of_check _ s (writeChecks_of_readChecks (readChecks_bounds hk (offsetInBounds_false.mpr ho)))
  case ownership =>
    exact rejected_of_check _ s
      (writeChecks_of_readChecks (readChecks_ownership hk (offsetInBounds_true.mpr ho) hown))
  case kind =>
    exact rejected_of_check _ s (writeChecks_kind (readChecks_none.mpr ⟨hk, offsetInBounds_true.mpr ho, hown⟩) hpix)

/-- Settles O22: as FBWR, with each coordinate checked on its own. -/
theorem fbwrxyCommand : Obligations.FbwrxyCommand := by
  refine ⟨fun k x y s => ⟨evalWord_encode (.fbwrxy k x y) s, fun hk => ?bufidx, fun hk hxy => ?bounds,
    fun hk hx hy hown => ?ownership, fun hk hx hy hown hpix => ?kind,
    fun hk hx hy hown hpix hbuf => ⟨_, exec_fbwrxy_stores hk hx hy hown hpix, stored_toNat hbuf k _,
      sameBuffersBut_stored hbuf k _, coordOffset_lt hx hy, stored_frame k _ s⟩⟩, illegalUnder_of_mask mask_X⟩
  case bufidx => exact rejected_of_check _ s (writeChecks_of_readChecks (readChecks_bufidx hk))
  case bounds =>
    exact rejected_of_check _ s (writeChecks_of_readChecks (readChecks_bounds hk (coordInBounds_false.mpr hxy)))
  case ownership =>
    exact rejected_of_check _ s
      (writeChecks_of_readChecks (readChecks_ownership hk (coordInBounds_true.mpr ⟨hx, hy⟩) hown))
  case kind =>
    exact rejected_of_check _ s
      (writeChecks_kind (readChecks_none.mpr ⟨hk, coordInBounds_true.mpr ⟨hx, hy⟩, hown⟩) hpix)

/-! ### What a step does to the buffers (20_memory.md R54 to R56) -/

/-- The command `i`, run in a block with parameters `p`, is a write that names FB[k][o]. -/
def NamesElement (i : Instr) (p : Params) (k : BufIdx) (o : Nat) : Prop :=
  (∃ a, i = .fbwr k a ∧ a.toNat = o) ∨ ∃ x y, i = .fbwrxy k x y ∧ y.toNat * p.width + x.toNat = o

theorem writesAt_of_evaluates {s : State} {i : Instr} {k : BufIdx} {o : Nat} (he : s.Evaluates i)
    (hi : NamesElement i s.params k o) : s.WritesAt k o := by
  rcases hi with ⟨a, rfl, ha⟩ | ⟨x, y, rfl, hxy⟩
  · exact .inl ⟨a, he, ha⟩
  · exact .inr ⟨x, y, he, hxy⟩

/-- A command leaves the buffers alone, or it is a write and stores at the element it names. -/
theorem commandEffect_buffers {i : Instr} {s t : State} (h : CommandEffect s i t) :
    (∀ j, t.fb j = s.fb j) ∨
      ∃ k o, s.own k = .producer ∧ o < s.params.cap ∧ NamesElement i s.params k o ∧ t = stored k o s := by
  cases h with
  | fbwr k o hk ho hown => exact .inr ⟨k, o.toNat, hown, ho, .inl ⟨o, rfl, rfl⟩, rfl⟩
  | fbwrxy k x y hk hx hy hown =>
    exact .inr ⟨k, coordOffset x y s, hown, coordOffset_lt hx hy, .inr ⟨x, y, rfl, rfl⟩, rfl⟩
  | submitted k => exact .inl fun j => fb_setOwn s k j .engine
  | reclaimed => exact .inl fun j => fb_setOwn s s.curBuf j .producer
  | _ => exact .inl fun _ => rfl

/-- Every change a step makes to the contents of the buffers. -/
inductive BufferEffect (s t : State) : Prop where
  | kept (hfb : ∀ j, t.fb j = s.fb j)
  | cleared (hm : s.nextMove = .reset) (hfb : ∀ j, t.fb j = [])
  | stored (k : BufIdx) (o : Nat) (hown : s.own k = .producer) (ho : o < s.params.cap) (hw : s.WritesAt k o)
      (hfb : ∀ j, t.fb j = (stored k o s).fb j)

theorem fb_stored (k : BufIdx) (o : Nat) (s : State) (j : BufIdx) :
    (stored k o s).fb j = if j = k then (s.fb k).write s.params.sentinel o (resultPixel s) else s.fb j :=
  fb_setFb s k j _

theorem resultPixel_congr {s t : State} (hp : t.params = s.params) (hr : t.result = s.result) :
    resultPixel t = resultPixel s := by
  rw [resultPixel, resultPixel, hp, hr]

/-- A store reads the contents, the parameters and RESULT only. -/
theorem fb_stored_congr {s u : State} (hfb : ∀ j, u.fb j = s.fb j) (hp : u.params = s.params)
    (hr : u.result = s.result) (k : BufIdx) (o : Nat) (j : BufIdx) :
    (stored k o u).fb j = (stored k o s).fb j := by
  rw [fb_stored, fb_stored, resultPixel_congr hp hr, hfb, hfb, hp]

/-- The inversion lemma of `step` for the buffers. -/
theorem step_buffers {s t : State} (hs : step s = .next t) : BufferEffect s t := by
  cases step_cases hs with
  | command w i u _ hw hd he =>
    obtain ⟨-, -, -, -, hr, -, -, -, hp, hown, hfb, -⟩ := presents_frame hw
    rcases commandEffect_buffers he with hkept | ⟨k, o, hprod, ho, hi, rfl⟩
    · exact .kept fun j => (hkept j).trans (hfb j)
    · refine .stored k o (hown k ▸ hprod) (hp ▸ ho) ?_ (fb_stored_congr hfb hp hr k o)
      exact writesAt_of_evaluates ⟨w, (presents_evaluates hw).1, hd⟩ (hp ▸ hi)
  | illegal w u hw =>
    obtain ⟨-, -, -, -, -, -, -, -, -, -, hfb, -⟩ := presents_frame hw
    exact .kept hfb
  | passed | emitted | completed | failed => exact .kept (fb_advance s)
  | reset hm => exact .cleared hm (fb_resetStep s.advance)

/-- No step changes the parameters (00_scope.md R9). -/
theorem step_params {s t : State} (hs : step s = .next t) : t.params = s.params := by
  cases step_cases hs with
  | command w i u _ hw hd he =>
    obtain ⟨-, -, -, -, -, -, -, -, hp, -⟩ := presents_frame hw
    exact (commandEffect_frame he).2.1.trans hp
  | illegal w u hw =>
    obtain ⟨-, -, -, -, -, -, -, -, hp, -⟩ := presents_frame hw
    exact hp
  | passed | emitted | completed | failed | reset => exact advance_params s

theorem fits_resultPixel (s : State) : s.params.fits (resultPixel s) = true := by
  rw [Params.fits, resultPixel_toNat]
  exact decide_eq_true (Nat.mod_lt _ (Nat.two_pow_pos _))

theorem buffersInv_stored {s : State} (h : s.BuffersInv) (k : BufIdx) {o : Nat} (ho : o < s.params.cap) (j : BufIdx) :
    ((stored k o s).fb j).Ok s.params := by
  rw [fb_stored]
  split
  · exact memory_write_ok (h k) ho (fits_resultPixel s)
  · exact h j

/-- Every step keeps the contents of the buffers in canonical form, with elements of PIXEL_BITS bits. -/
theorem step_buffersInv {s t : State} (h : s.BuffersInv) (hs : step s = .next t) : t.BuffersInv := by
  intro j
  rw [step_params hs]
  cases step_buffers hs with
  | kept hfb => exact hfb j ▸ h j
  | cleared hm hfb => exact hfb j ▸ ⟨rfl, by simp⟩
  | stored k o hown ho hw hfb => exact hfb j ▸ buffersInv_stored h k ho j

theorem pixelAt_of_fb {s t : State} {k : BufIdx} (hfb : t.fb k = s.fb k) (hp : t.params = s.params) (o : Nat) :
    t.pixelAt k o = s.pixelAt k o := by
  rw [State.pixelAt, State.pixelAt, hfb, hp]

/-- An element that no write names, or that the engine owns, reads after a step as before, but for RESET. -/
theorem step_pixelAt {s t : State} {k : BufIdx} {o : Nat} (h : s.BuffersInv) (hs : step s = .next t)
    (hm : s.nextMove ≠ .reset) (hw : s.own k = .engine ∨ ¬ s.WritesAt k o) : t.pixelAt k o = s.pixelAt k o := by
  have hp := step_params hs
  cases step_buffers hs with
  | kept hfb => exact pixelAt_of_fb (hfb k) hp o
  | cleared hreset => exact absurd hreset hm
  | stored j a hown ha hwrite hfb =>
    have hne : ¬ (k = j ∧ o = a) := by
      rintro ⟨rfl, rfl⟩
      rcases hw with he | hn
      · rw [hown] at he; cases he
      · exact hn hwrite
    calc t.pixelAt k o
      _ = (stored j a s).pixelAt k o := pixelAt_of_fb (hfb k) (hp.trans (fbWrite_params j a _ s).symm) o
      _ = s.pixelAt k o := (pixelAt_stored h j a k o).trans (if_neg hne)

/-! ### Runs -/

/-- What every step keeps holds after any number of steps. -/
theorem after_of_step {P : State → Prop} (hstep : ∀ {s t}, P s → step s = .next t → P t) {s : State} (h : P s)
    (n : Nat) : P (s.after n) := by
  induction n with
  | zero => exact h
  | succ n ih =>
    rcases after_next_or_stay s n with hs | hs
    · exact hstep ih hs
    · exact hs ▸ ih

theorem after_params (s : State) (n : Nat) : (s.after n).params = s.params :=
  after_of_step (P := fun t => t.params = s.params) (fun ht hs => (step_params hs).trans ht) rfl n

theorem after_buffersInv {s : State} (h : s.BuffersInv) (n : Nat) : (s.after n).BuffersInv :=
  after_of_step step_buffersInv h n

/-- An element reads as after the first step for as long as no write to it and no reset intervenes. -/
theorem pixelAt_after {s : State} (h : s.BuffersInv) {k : BufIdx} {o n : Nat} (hn : 1 ≤ n)
    (hrun : ∀ m, 1 ≤ m → m < n → ¬ (s.after m).WritesAt k o ∧ (s.after m).nextMove ≠ .reset) :
    (s.after n).pixelAt k o = (s.after 1).pixelAt k o := by
  induction n, hn using Nat.le_induction with
  | base => rfl
  | succ n hn ih =>
    rw [← ih fun m h1 hm => hrun m h1 (by omega)]
    obtain ⟨hw, hm⟩ := hrun n hn (by omega)
    rcases after_next_or_stay s n with hs | hs
    · exact step_pixelAt (after_buffersInv h n) hs hm (.inr hw)
    · rw [hs]

/-! ### Write, then read (41_framebuffer.md R131) -/

/-- `u` agrees with `s` on all that the checks and the effects of frame-buffer access read. -/
structure SameAccess (s u : State) : Prop where
  params : u.params = s.params
  own : ∀ k, u.own k = s.own k
  fb : ∀ k, u.fb k = s.fb k
  result : SameResult s u

theorem presents_sameAccess {s u : State} {w : Word} (h : Presents s w u) : SameAccess s u := by
  obtain ⟨-, -, -, -, hr, hkd, -, -, hp, hown, hfb, -⟩ := presents_frame h
  exact ⟨hp, hown, hfb, hr, hkd⟩

theorem pixKind_congr {s u : State} (hp : u.params = s.params) : pixKind u = pixKind s := by
  rw [pixKind, pixKind, hp]

theorem holdsPixel_of_sameAccess {s u : State} (h : SameAccess s u) (hpix : s.HoldsPixel) : u.HoldsPixel := by
  rw [holdsPixel_iff] at hpix ⊢
  rw [h.result.2, hpix, pixKind_congr h.params]

theorem pixelAt_of_sameAccess {s u : State} (h : SameAccess s u) (k : BufIdx) (o : Nat) :
    u.pixelAt k o = s.pixelAt k o :=
  pixelAt_of_fb (h.fb k) h.params o

/-- A step that evaluates a command runs it in a state that differs in PENDING and the environment only. -/
theorem step_of_evaluates {s : State} {i : Instr} (h : s.Evaluates i) :
    ∃ u, SameAccess s u ∧ step s = exec i u := by
  obtain ⟨w, ⟨hp, ready, hm⟩ | ⟨hp, hm, hq⟩, hd⟩ := h
  · refine ⟨_, presents_sameAccess (.issued w ready hm hp), ?_⟩
    rw [step_quiet (.inl hp), hm]
    exact (hostStep_none (by simpa using hp)).trans (evalWord_command _ hd)
  · exact ⟨s, presents_sameAccess (.pending w hm hp hq), (step_pending hm hp hq).trans (evalWord_command _ hd)⟩

/-- The command `i` evaluated in `s` passes its checks and stores RESULT's pixel in FB[k][o]. -/
def Stores (i : Instr) (s : State) (k : BufIdx) (o : Nat) : Prop :=
  ∀ u, SameAccess s u → exec i u = .next (stored k o u)

/-- The command `i` evaluated in `s` passes its checks and reads FB[k][o] into RESULT. -/
def Loads (i : Instr) (s : State) (k : BufIdx) (o : Nat) : Prop :=
  ∀ u, SameAccess s u → exec i u = .next (loaded k o u)

section
variable {s : State} {k : BufIdx} (hk : k.toNat < s.params.nbuf.count) (hown : s.own k = .producer)
include hk hown

theorem stores_fbwr {o : BitVec 16} (ho : o.toNat < s.params.cap) (hpix : s.HoldsPixel) :
    Stores (.fbwr k o) s k o.toNat := fun u h =>
  exec_fbwr_stores (by rwa [h.params]) (by rwa [h.params]) (by rwa [h.own]) (holdsPixel_of_sameAccess h hpix)

theorem loads_fbrd {o : BitVec 16} (ho : o.toNat < s.params.cap) : Loads (.fbrd k o) s k o.toNat := fun u h =>
  exec_fbrd_loads (by rwa [h.params]) (by rwa [h.params]) (by rwa [h.own])

variable {x y : BitVec 8} (hx : x.toNat < s.params.width) (hy : y.toNat < s.params.height)
include hx hy

theorem stores_fbwrxy (hpix : s.HoldsPixel) :
    Stores (.fbwrxy k x y) s k (y.toNat * s.params.width + x.toNat) := fun u h => by
  rw [← h.params]
  exact exec_fbwrxy_stores (by rwa [h.params]) (by rwa [h.params]) (by rwa [h.params]) (by rwa [h.own])
    (holdsPixel_of_sameAccess h hpix)

theorem loads_fbrdxy : Loads (.fbrdxy k x y) s k (y.toNat * s.params.width + x.toNat) := fun u h => by
  rw [← h.params]
  exact exec_fbrdxy_loads (by rwa [h.params]) (by rwa [h.params]) (by rwa [h.params]) (by rwa [h.own])

end

/-- After the step of a store, its element reads as RESULT's pixel. -/
theorem pixelAt_of_stores {s : State} {i : Instr} {k : BufIdx} {o : Nat} (h : s.BuffersInv) (he : s.Evaluates i)
    (hst : Stores i s k o) : s.stepOrStay.pixelAt k o = resultPixel s := by
  obtain ⟨u, hu, hs⟩ := step_of_evaluates he
  have hbuf : u.BuffersInv := fun j => by rw [hu.fb, hu.params]; exact h j
  rw [stepOrStay_of_next (hs.trans (hst u hu)), pixelAt_stored hbuf, if_pos ⟨rfl, rfl⟩]
  exact resultPixel_congr hu.params hu.result.1

/-- After the step of a load, RESULT holds its element. -/
theorem result_of_loads {s : State} {i : Instr} {k : BufIdx} {o : Nat} (he : s.Evaluates i) (hld : Loads i s k o) :
    s.stepOrStay.result = (s.pixelAt k o).setWidth 32 ∧ s.stepOrStay.resultKind = pixKind s ∧
      s.stepOrStay.pending = none := by
  obtain ⟨u, hu, hs⟩ := step_of_evaluates he
  rw [stepOrStay_of_next (hs.trans (hld u hu)), ← pixelAt_of_sameAccess hu, ← pixKind_congr hu.params]
  exact ⟨rfl, rfl, rfl⟩

/-- A word whose bits from `n` up are zero is below 2 ^ `n`. -/
theorem toNat_lt_of_high_bits_zero {w : Word} {n m : Nat} (hnm : n + m = 32) (h : w.extractLsb' n m = 0) :
    w.toNat < 2 ^ n := by
  have hquot : w.toNat / 2 ^ n < 2 ^ m := by
    rw [Nat.div_lt_iff_lt_mul (Nat.two_pow_pos n), ← Nat.pow_add, Nat.add_comm, hnm]
    exact w.isLt
  have hzero : w.toNat / 2 ^ n = 0 := by
    rw [← Nat.mod_eq_of_lt hquot, ← Nat.shiftRight_eq_div_pow, ← BitVec.extractLsb'_toNat, h]
    rfl
  exact (Nat.div_eq_zero_iff_lt (Nat.two_pow_pos n)).mp hzero

/-- A pixel in RESULT has no bit above PIXEL_BITS (10_state.md R22). -/
theorem result_lt_of_holdsPixel {s : State} (h : s.ResultInv) (hpix : s.HoldsPixel) :
    s.result.toNat < 2 ^ s.params.pixelBits := by
  rcases hpix with ⟨hformat, hkind⟩ | ⟨hformat, hkind⟩ <;>
  · simp only [State.ResultInv, hkind] at h
    simp only [Params.pixelBits, hformat]
    exact toNat_lt_of_high_bits_zero rfl h

/-- The pixel a write takes from RESULT, widened, is all of RESULT. -/
theorem setWidth_resultPixel {s : State} (h : s.ResultInv) (hpix : s.HoldsPixel) :
    (resultPixel s).setWidth 32 = s.result := by
  apply BitVec.eq_of_toNat_eq
  rw [BitVec.toNat_setWidth_of_le (by decide), resultPixel_toNat, Nat.mod_eq_of_lt (result_lt_of_holdsPixel h hpix)]

/-- A load of the element a store wrote gives RESULT and its kind back, through any run that neither writes the
element nor resets. -/
theorem load_returns_store {s : State} {i j : Instr} {k : BufIdx} {o n : Nat} (h : s.Inv) (hpix : s.HoldsPixel)
    (hi : s.Evaluates i) (hst : Stores i s k o) (hn : 1 ≤ n)
    (hrun : ∀ m, 1 ≤ m → m ≤ n → ¬ (s.after m).WritesAt k o ∧ (s.after m).nextMove ≠ .reset)
    (hj : (s.after n).Evaluates j) (hld : Loads j (s.after n) k o) :
    (s.after (n + 1)).result = s.result ∧ (s.after (n + 1)).resultKind = s.resultKind ∧
      (s.after (n + 1)).pending = none := by
  have hpixel : (s.after n).pixelAt k o = resultPixel s :=
    (pixelAt_after h.buffers hn fun m h1 hm => hrun m h1 hm.le).trans (pixelAt_of_stores h.buffers hi hst)
  obtain ⟨hresult, hkind, hpending⟩ := result_of_loads hj hld
  refine ⟨?_, ?_, hpending⟩
  · exact hresult.trans (hpixel ▸ setWidth_resultPixel h.result hpix)
  · exact hkind.trans ((pixKind_congr (after_params s n)).trans (holdsPixel_iff.mp hpix).symm)

/-- Settles O25: the write's step stores the pixel, every step of the run keeps it, and the read's step loads it. -/
theorem readReturnsLastWrite : Obligations.ReadReturnsLastWrite := by
  constructor
  · intro k x y s n h hk hx hy hown hpix hwr hrun hn hown' hrd
    have hp := after_params s n
    refine load_returns_store h hpix hwr (stores_fbwrxy hk hown hx hy hpix) hn hrun hrd ?_
    rw [← hp] at hk hx hy ⊢
    exact loads_fbrdxy hk hown' hx hy
  · intro k o s n h hk ho hown hpix hwr hrun hn hown' hrd
    have hp := after_params s n
    refine load_returns_store h hpix hwr (stores_fbwr hk hown ho hpix) hn hrun hrd ?_
    rw [← hp] at hk ho
    exact loads_fbrd hk hown' ho

end Sys2Proof.Machine

namespace Sys2Proof.Machine

/-! ### SUBMIT (42_transfer.md R144 to R147) -/

theorem submitChecks_bufidx {k : BufIdx} {s : State} (hk : s.params.nbuf.count ≤ k.toNat) :
    submitChecks k s = some .bufidx := by
  simp [submitChecks, bufferExists, hk]

theorem submitChecks_faulted {k : BufIdx} {s : State} (hk : k.toNat < s.params.nbuf.count)
    (hs : s.engState = .fault) : submitChecks k s = some .faulted := by
  simp [submitChecks, bufferExists, hk, hs]

theorem submitChecks_busy {k : BufIdx} {s : State} (hk : k.toNat < s.params.nbuf.count)
    (hs : s.engState = .submitted ∨ s.engState = .completing) : submitChecks k s = some .busy := by
  rcases hs with hs | hs <;> simp [submitChecks, bufferExists, hk, hs]

/-- A check of SUBMIT that fails rejects it. -/
theorem rejected_submit {k : BufIdx} {c : ErrCode} {s : State} (h : submitChecks k s = some c) :
    Rejected (exec (.submit k) s) c s := by
  show Rejected (execSubmit k s) c s
  exact rejected_of_check _ s h

/-- A SUBMIT that passes its checks has its effect. -/
theorem exec_submit_passes {k : BufIdx} {s : State} (hk : k.toNat < s.params.nbuf.count)
    (hidle : s.engState = .idle) : exec (.submit k) s = .next (submitEffect k s) := by
  show execSubmit k s = _
  rw [execSubmit, submitChecks_none.mpr ⟨hk, hidle⟩]
  rfl

theorem submitEffect_ready {s : State} (k : BufIdx) (hready : s.xportReady = true) :
    submitEffect k s = retire (handOff k s) := if_pos hready

theorem submitEffect_unready {s : State} (k : BufIdx) (hready : s.xportReady = false) :
    submitEffect k s = configFault s := if_neg (by simp [hready])

/-- The hand-off moves no other owner, and touches neither contents nor wire (42_transfer.md R145). -/
theorem handOff_frame (k : BufIdx) (s : State) :
    (∀ j, j ≠ k → (handOff k s).own j = s.own j) ∧ (handOff k s).errcode = s.errcode ∧
      (handOff k s).faultCause = s.faultCause ∧ SameBuffers s (handOff k s) ∧ (handOff k s).wire = s.wire ∧
      SameEnvironment s (handOff k s) :=
  ⟨fun j hj => by rw [own_handOff, if_neg hj], by simp [handOff], by simp [handOff], pixelAt_handOff k s,
    by simp [handOff], by simp [SameEnvironment, handOff]⟩

/-- The ConfigurationFault hands nothing over (42_transfer.md R147). -/
theorem configFault_frame (s : State) :
    (∀ j, (configFault s).own j = s.own j) ∧ (configFault s).curBuf = s.curBuf ∧
      (configFault s).xferPtr = s.xferPtr ∧ SameResult s (configFault s) ∧ SameBuffers s (configFault s) ∧
      (configFault s).wire = s.wire ∧ SameEnvironment s (configFault s) :=
  ⟨fun _ => rfl, rfl, rfl, ⟨rfl, rfl⟩, fun _ _ => rfl, rfl, ⟨rfl, rfl, rfl, rfl⟩⟩

/-- A buffer index as a handle keeps its value. -/
theorem toNat_handle (k : BufIdx) : (k.setWidth 32 : Word).toNat = k.toNat :=
  BitVec.toNat_setWidth_of_le (by decide)

/-- Settles O28: each rejection is the first check that fails; past the checks the level of xport_ready decides between
the hand-off and the ConfigurationFault. -/
theorem submitCommand : Obligations.SubmitCommand := by
  refine ⟨fun k s => ⟨evalWord_encode (.submit k) s,
    fun hk => rejected_submit (submitChecks_bufidx hk),
    fun hk hs => rejected_submit (submitChecks_faulted hk hs),
    fun hk hs => rejected_submit (submitChecks_busy hk hs),
    fun hk hidle hready => ⟨_, exec_submit_passes hk hidle, ?unready⟩,
    fun hk hidle hready => ⟨_, exec_submit_passes hk hidle, ?ready⟩⟩, illegalUnder_of_mask mask_T⟩
  case unready =>
    rw [submitEffect_unready k hready]
    exact ⟨rfl, rfl, rfl, rfl, configFault_frame s⟩
  case ready =>
    rw [submitEffect_ready k hready]
    obtain ⟨hown, herr, hcause, hbuf, hwire, henv⟩ := handOff_frame k s
    exact ⟨(own_handOff k k s).trans (if_pos rfl), hown, rfl, rfl, rfl, toNat_handle k, rfl, rfl, herr, hcause,
      hbuf, hwire, henv⟩

/-! ### WAIT (42_transfer.md R150 to R155) -/

theorem waitChecks_bufidx {k : BufIdx} {s : State} (hk : s.params.nbuf.count ≤ k.toNat) :
    waitChecks k s = some .bufidx := by
  simp [waitChecks, bufferExists, hk]

theorem waitChecks_idle {k : BufIdx} {s : State} (hk : k.toNat < s.params.nbuf.count)
    (hs : s.engState = .idle) : waitChecks k s = some .noxfer := by
  simp [waitChecks, bufferExists, hk, hs]

theorem waitChecks_faulted {k : BufIdx} {s : State} (hk : k.toNat < s.params.nbuf.count)
    (hs : s.engState = .fault) : waitChecks k s = some .faulted := by
  simp [waitChecks, bufferExists, hk, hs]

theorem waitChecks_otherBuffer {k : BufIdx} {s : State} (hk : k.toNat < s.params.nbuf.count)
    (hs : s.engState = .submitted ∨ s.engState = .completing) (hne : k ≠ s.curBuf) :
    waitChecks k s = some .noxfer := by
  rcases hs with hs | hs <;> simp [waitChecks, bufferExists, hk, hs, hne]

/-- A check of WAIT that fails rejects it. -/
theorem rejected_wait {k : BufIdx} {c : ErrCode} {s : State} (h : waitChecks k s = some c) :
    Rejected (exec (.wait k) s) c s := by
  show Rejected (execWait k s) c s
  exact rejected_of_check _ s h

/-- In COMPLETING a WAIT on the current buffer reclaims it. -/
theorem exec_wait_reclaims {s : State} (hk : s.CurBufExists) (hcomp : s.engState = .completing) :
    exec (.wait s.curBuf) s = .next (retire (reclaim s.curBuf s)) := by
  show execWait s.curBuf s = _
  rw [execWait, waitChecks_none.mpr ⟨hk, rfl, .inr hcomp⟩]
  exact if_neg (by simp [hcomp])

/-- The reclaim moves no other owner, and touches neither contents nor wire (42_transfer.md R155). -/
theorem reclaim_frame (k : BufIdx) (s : State) :
    (∀ j, j ≠ k → (reclaim k s).own j = s.own j) ∧ (reclaim k s).curBuf = s.curBuf ∧
      (reclaim k s).xferPtr = s.xferPtr ∧ (reclaim k s).faultCause = s.faultCause ∧
      (reclaim k s).errcode = s.errcode ∧ SameBuffers s (reclaim k s) ∧ (reclaim k s).wire = s.wire ∧
      SameEnvironment s (reclaim k s) :=
  ⟨fun j hj => by rw [own_reclaim, if_neg hj], by simp [reclaim], by simp [reclaim], by simp [reclaim],
    by simp [reclaim], pixelAt_reclaim k s, by simp [reclaim], by simp [SameEnvironment, reclaim]⟩

/-- What a reclaim gives the HOST: an idle engine, the buffer, and its handle (42_transfer.md R155). -/
theorem reclaim_returns (k : BufIdx) (s : State) :
    (reclaim k s).engState = .idle ∧ (reclaim k s).own k = .producer ∧ (reclaim k s).result.toNat = k.toNat ∧
      (reclaim k s).resultKind = .handle :=
  ⟨rfl, (own_reclaim k k s).trans (if_pos rfl), toNat_handle k, rfl⟩

/-- Settles O29: each rejection is the first check that fails; past the checks ENG_STATE decides between the hold and
the reclaim. -/
theorem waitCommand : Obligations.WaitCommand := by
  refine ⟨fun k s => ⟨evalWord_encode (.wait k) s,
    fun hk => rejected_wait (waitChecks_bufidx hk),
    fun hk hs => rejected_wait (waitChecks_idle hk hs),
    fun hk hs => rejected_wait (waitChecks_faulted hk hs),
    fun hk hs hne => rejected_wait (waitChecks_otherBuffer hk hs hne), ?hold, ?reclaim⟩,
    illegalUnder_of_mask mask_T⟩
  case hold =>
    rintro hk hs rfl
    exact exec_held hk hs
  case reclaim =>
    rintro hk hs rfl
    obtain ⟨heng, hprod, hresult, hkind⟩ := reclaim_returns s.curBuf s
    obtain ⟨hown, hcur, hptr, hcause, herr, hbuf, hwire, henv⟩ := reclaim_frame s.curBuf s
    exact ⟨_, exec_wait_reclaims hk hs, hprod, hown, heng, hresult, hkind, rfl, hcur, hptr, hcause, herr, hbuf,
      hwire, henv⟩

/-! ### EMIT (42_transfer.md R160) -/

/-- An enabled EMIT of an engine-owned buffer. -/
theorem emitEvent_enabled {s : State} (hs : s.engState = .submitted) (hown : s.own s.curBuf = .engine)
    (hptr : s.xferPtr < s.params.cap) : emitEvent s = .next (emitted s) := by
  rw [emitEvent_eq, if_pos ⟨hs, hptr⟩, if_pos hown]

/-- The bytes of a 5-6-5 element are its own two, the high one first. -/
theorem pixelBytes_rgb565 (p : Pixel) :
    pixelBytes .rgb565 p = [p.extractLsb' 8 8, p.extractLsb' 0 8] := by
  rw [pixelBytes, hiByte565, loByte565, BitVec.extractLsb'_extractLsb'_of_le (by decide),
    BitVec.extractLsb'_extractLsb'_of_le (by decide)]

/-- They are those of the word SPLIT565 writes. -/
theorem pixelBytes_rgb565_eq_split565 (p : Pixel) :
    pixelBytes .rgb565 p = [(split565 (p.extractLsb' 0 16)).extractLsb' 8 8,
      (split565 (p.extractLsb' 0 16)).extractLsb' 0 8] := by
  rw [extractLsb'_split565 _ (by decide), extractLsb'_split565 _ (by decide)]
  rfl

/-- The bytes of a 6-6-6 element are those of the word SPLIT666 writes. -/
theorem pixelBytes_rgb666_eq_split666 (p : Pixel) :
    pixelBytes .rgb666 p =
      [(split666 p).extractLsb' 16 8, (split666 p).extractLsb' 8 8, (split666 p).extractLsb' 0 8] := by
  have hred := extractLsb'_split666_red (start := 0) (len := 8) p (by decide)
  have hgreen := extractLsb'_split666_green (start := 0) (len := 8) p (by decide)
  have hblue := extractLsb'_split666_blue (start := 0) (len := 8) p (by decide)
  rw [hred, hgreen, hblue, BitVec.extractLsb'_eq_self, BitVec.extractLsb'_eq_self, BitVec.extractLsb'_eq_self]
  rfl

theorem emitted_wire {s : State} {f : PixelFormat} (hf : s.params.format = f) :
    (emitted s).wire = s.wire ++ pixelBytes f (s.pixelAt s.curBuf s.xferPtr) := hf ▸ rfl

/-- Settles O30: the bytes EMIT appends are read off the element and off the word the SPLIT of the format gives. -/
theorem emitEventPutsPixelOnWire : Obligations.EmitEvent := by
  intro s hs hown hptr
  refine ⟨emitted s, emitEvent_enabled hs hown hptr, fun hf => ?rgb565, fun hf => ?rgb666, rfl, rfl, rfl, rfl,
    fun _ => rfl, ⟨rfl, rfl⟩, rfl, rfl, fun _ _ => rfl, ⟨rfl, rfl, rfl, rfl⟩⟩
  case rgb565 =>
    rw [emitted_wire hf]
    exact ⟨by rw [pixelBytes_rgb565], _, exec_split565 _ s, congrArg _ (pixelBytes_rgb565_eq_split565 _)⟩
  case rgb666 =>
    rw [emitted_wire hf]
    exact ⟨rfl, _, exec_split666 _ s, congrArg _ (pixelBytes_rgb666_eq_split666 _)⟩

/-! ### A held WAIT (42_transfer.md R151) -/

theorem quiet_of_held {s : State} (hk : s.CurBufExists) (hs : s.engState = .submitted)
    (hp : s.pending = some (encode (.wait s.curBuf))) : s.Quiet :=
  .inr ⟨hk, hs, _, hp, decode_encode _⟩

/-- All that a pending WAIT names is in `t` as in `s`. -/
structure SameWait (s t : State) : Prop where
  curBuf : t.curBuf = s.curBuf
  pending : t.pending = s.pending
  params : t.params = s.params

theorem curBufExists_of_sameWait {s t : State} (h : SameWait s t) (hk : s.CurBufExists) : t.CurBufExists := by
  rw [State.CurBufExists, h.curBuf, h.params]
  exact hk

theorem waitPending_of_sameWait {s t : State} (h : SameWait s t)
    (hp : s.pending = some (encode (.wait s.curBuf))) : t.pending = some (encode (.wait t.curBuf)) := by
  rw [h.curBuf, h.pending, hp]

/-- An EMIT, enabled or not, leaves the engine in its state and a pending WAIT as it is. -/
theorem step_emit_sameWait {s t : State} (hq : s.Quiet) (hm : s.nextMove = .emit) (h : step s = .next t) :
    t.engState = s.engState ∧ SameWait s t := by
  rw [step_quiet hq, hm] at h
  simp only [moveStep, emitEvent_eq] at h
  split at h
  · split at h
    · cases h; exact ⟨advance_engState s, advance_curBuf s, advance_pending s, advance_params s⟩
    · cases h
  · cases h; exact ⟨advance_engState s, advance_curBuf s, advance_pending s, advance_params s⟩

/-- DONE after the last pixel enters COMPLETING (42_transfer.md R161). -/
theorem step_done_sameWait {s : State} (hq : s.Quiet) (hm : s.nextMove = .done) (hs : s.engState = .submitted)
    (hx : s.xferPtr = s.params.cap) : ∃ t, step s = .next t ∧ t.engState = .completing ∧ SameWait s t := by
  refine ⟨{ s.advance with engState := .completing }, ?_, rfl, advance_curBuf s, advance_pending s,
    advance_params s⟩
  rw [step_quiet hq, hm]
  exact congrArg _ (if_pos (by simp [hs, hx]))

/-- XERR in SUBMITTED enters FAULT (42_transfer.md R162). -/
theorem step_xerr_sameWait {s : State} (hq : s.Quiet) (hm : s.nextMove = .xerr) (hs : s.engState = .submitted) :
    ∃ t, step s = .next t ∧ t.engState = .fault ∧ SameWait s t := by
  refine ⟨enterFault .transfer s.advance, ?_, rfl, advance_curBuf s, advance_pending s, advance_params s⟩
  rw [step_quiet hq, hm]
  exact congrArg _ (if_pos (by simp [hs]))

/-- Settles O34: a WAIT that holds leaves the step to the next move; once the engine has left SUBMITTED the next step is
the WAIT's own, by its checks in the state it then finds. -/
theorem heldWaitIsEvaluatedAgain : Obligations.HeldWaitIsEvaluatedAgain := by
  intro s hk hs hp
  have hq : s.Quiet := quiet_of_held hk hs hp
  refine ⟨exec_held hk hs, fun w ready hm => ?host, fun t hm ht => ?emit, fun hm hx => ?done, fun hm => ?xerr,
    fun hm => ⟨_, step_reset hm, rfl⟩⟩
  case host =>
    rw [step_quiet hq, hm]
    exact hostStep_some (by simpa using hp)
  case emit =>
    obtain ⟨heng, hw⟩ := step_emit_sameWait hq hm ht
    have hsub : t.engState = .submitted := heng.trans hs
    exact ⟨hsub, hw.curBuf, hw.pending, exec_held (curBufExists_of_sameWait hw hk) hsub⟩
  case done =>
    obtain ⟨t, ht, hcomp, hw⟩ := step_done_sameWait hq hm hs hx
    refine ⟨t, ht, hcomp, hw.curBuf, hw.pending, fun hm' => ?_⟩
    rw [← hw.curBuf]
    have hstep : step t = exec (.wait t.curBuf) t :=
      step_released hm' (waitPending_of_sameWait hw hp) (decode_encode _) (by simp [hcomp])
    exact ⟨hstep, _, hstep.trans (exec_wait_reclaims (curBufExists_of_sameWait hw hk) hcomp), rfl,
      reclaim_returns t.curBuf t⟩
  case xerr =>
    obtain ⟨t, ht, hfault, hw⟩ := step_xerr_sameWait hq hm hs
    refine ⟨t, ht, hfault, hw.curBuf, hw.pending, fun hm' => ?_⟩
    rw [← hw.curBuf]
    have hstep : step t = exec (.wait t.curBuf) t :=
      step_released hm' (waitPending_of_sameWait hw hp) (decode_encode _) (by simp [hfault])
    exact ⟨hstep, hstep ▸ rejected_wait (waitChecks_faulted (curBufExists_of_sameWait hw hk) hfault)⟩

/-! ### What a step does to the engine and the wire -/

theorem sameEngine_trans {s t u : State} (h : SameEngine s t) (h' : SameEngine t u) : SameEngine s u := by
  obtain ⟨heng, hcur, hcause, hown, hptr⟩ := h
  obtain ⟨heng', hcur', hcause', hown', hptr'⟩ := h'
  exact ⟨heng'.trans heng, hcur'.trans hcur, hcause'.trans hcause, fun k => (hown' k).trans (hown k),
    hptr'.trans hptr⟩

theorem presents_sameEngine {s u : State} {w : Word} (h : Presents s w u) : SameEngine s u := by
  obtain ⟨heng, hcur, hcause, hptr, -, -, -, -, -, hown, -⟩ := presents_frame h
  exact ⟨heng, hcur, hcause, hown, hptr⟩

theorem advance_sameEngine (s : State) : SameEngine s s.advance :=
  ⟨advance_engState s, advance_curBuf s, advance_faultCause s, own_advance s, advance_xferPtr s⟩

/-- Every way a step treats the engine: it leaves it and the wire alone, or makes a transition of 42_transfer.md R140,
or sends a pixel. -/
inductive EngineEffect (s : State) : State → Prop where
  | kept (t : State) (he : SameEngine s t) (hwire : t.wire = s.wire) : EngineEffect s t
  | submitted (k : BufIdx) (w : Word) (u : State) (hw : Presents s w u) (hd : decode w = .command (.submit k))
      (hk : k.toNat < s.params.nbuf.count) (hidle : s.engState = .idle) : EngineEffect s (retire (handOff k u))
  | configFault (u : State) (hidle : s.engState = .idle) : EngineEffect s (configFault u)
  | emitted (hs : s.engState = .submitted) (hx : s.xferPtr < s.params.cap) : EngineEffect s (emitted s.advance)
  | completed (hs : s.engState = .submitted) (hx : s.xferPtr = s.params.cap) :
      EngineEffect s { s.advance with engState := .completing }
  | failed (hs : s.engState = .submitted) : EngineEffect s (enterFault .transfer s.advance)
  | reclaimed (w : Word) (u : State) (hw : Presents s w u) (hd : decode w = .command (.wait s.curBuf))
      (hcomp : s.engState = .completing) : EngineEffect s (retire (reclaim s.curBuf u))
  | reset (hm : s.nextMove = .reset) : EngineEffect s (resetStep s.advance)

/-- The inversion lemma of `step` for the engine. -/
theorem step_engine {s t : State} (hs : step s = .next t) : EngineEffect s t := by
  cases step_cases hs with
  | command w i u _ hw hd he =>
    have hpres := presents_sameEngine hw
    obtain ⟨heng, hcur, -, -, -, -, -, hwire, hp, -⟩ := presents_frame hw
    rcases commandEffect_engine he with hkept | ⟨k, rfl, hk, hidle, rfl | rfl⟩ | ⟨rfl, hcomp, rfl⟩
    · exact .kept t (sameEngine_trans hpres hkept) ((commandEffect_frame he).1.trans hwire)
    · exact .submitted k w u hw hd (hp ▸ hk) (heng ▸ hidle)
    · exact .configFault u (heng ▸ hidle)
    · rw [hcur] at hd ⊢
      exact .reclaimed w u hw hd (heng ▸ hcomp)
  | illegal w u hw =>
    obtain ⟨-, -, -, -, -, -, -, hwire, -⟩ := presents_frame hw
    obtain ⟨-, -, -, hkept, -⟩ := onlyErrcode_rejected .illegal u
    exact .kept _ (sameEngine_trans (presents_sameEngine hw) hkept) hwire
  | passed => exact .kept _ (advance_sameEngine s) (advance_wire s)
  | emitted hm hq hsub hown hx => exact .emitted hsub hx
  | completed hm hq hsub hx => exact .completed hsub hx
  | failed hm hq hsub => exact .failed hsub
  | reset hm => exact .reset hm

/-! ### One transfer, from SUBMIT to WAIT (42_transfer.md R157) -/

/-- A step evaluates one word only: the one pending, or the one the HOST issues. -/
theorem evaluatesWord_unique {s : State} {v w : Word} (hv : s.EvaluatesWord v) (hw : s.EvaluatesWord w) : v = w := by
  rcases hv with ⟨hp, ready, hm⟩ | ⟨hp, -⟩ <;> rcases hw with ⟨hp', ready', hm'⟩ | ⟨hp', -⟩
  · cases hm.symm.trans hm'; rfl
  · cases hp.symm.trans hp'
  · cases hp.symm.trans hp'
  · exact Option.some.inj (hp.symm.trans hp')

theorem evaluates_unique {s : State} {i j : Instr} (hi : s.Evaluates i) (hj : s.Evaluates j) : i = j := by
  obtain ⟨v, hv, hdi⟩ := hi
  obtain ⟨w, hw, hdj⟩ := hj
  rw [evaluatesWord_unique hv hw] at hdi
  exact Decoded.command.inj (hdi.symm.trans hdj)

/-- A step of a run that moves ENG_STATE has not stopped. -/
theorem step_of_engState_ne {s : State} {n : Nat} (h : (s.after (n + 1)).engState ≠ (s.after n).engState) :
    step (s.after n) = .next (s.after (n + 1)) :=
  (after_next_or_stay s n).resolve_right fun hs => h (congrArg State.engState hs)

/-- A transfer is in flight. -/
def State.InFlight (s : State) : Prop := s.engState = .submitted ∨ s.engState = .completing

theorem ne_idle_of_inFlight {s : State} (h : s.InFlight) : s.engState ≠ .idle := by
  rcases h with h | h <;> simp [h]

theorem ne_fault_of_inFlight {s : State} (h : s.InFlight) : s.engState ≠ .fault := by
  rcases h with h | h <;> simp [h]

/-- `t` is a state of the transfer that a SUBMIT of buffer `k` in `s` started: the engine owns the buffer, which holds
what it held in `s`, and the wire has grown by the pixels before XFER_PTR, all of them once DONE has come. -/
structure Transferring (s : State) (k : BufIdx) (t : State) : Prop where
  curBuf : t.curBuf = k
  own : t.own k = .engine
  params : t.params = s.params
  buffers : t.BuffersInv
  pixels : ∀ o, t.pixelAt k o = s.pixelAt k o
  wire : t.wire = s.wire ++ s.frameBytes k t.xferPtr
  sent : t.engState = .completing → t.xferPtr = s.params.cap

/-- The hand-off starts the transfer, with nothing on the wire yet. -/
theorem transferring_handOff {s u : State} {w : Word} (h : s.BuffersInv) (hw : Presents s w u) (k : BufIdx)
    (hs : step s = .next (retire (handOff k u))) : Transferring s k (retire (handOff k u)) := by
  obtain ⟨-, -, -, -, -, -, -, hwire, -, -, -, hpix⟩ := presents_frame hw
  obtain ⟨-, -, -, hbuf, hkept, -⟩ := handOff_frame k u
  exact
    { curBuf := rfl
      own := (own_handOff k k u).trans (if_pos rfl)
      params := step_params hs
      buffers := step_buffersInv h hs
      pixels := fun o => (hbuf k o).trans (hpix k o)
      wire := (hkept.trans hwire).trans (List.append_nil _).symm
      sent := nofun }

/-- Every step that stays in flight keeps the transfer: no write reaches an engine-owned buffer, and EMIT puts the next
pixel on the wire. -/
theorem transferring_step {s t u : State} {k : BufIdx} (h : Transferring s k t) (ht : t.InFlight)
    (hs : step t = .next u) (hu : u.InFlight) : Transferring s k u := by
  have hm : t.nextMove ≠ .reset := fun hm => by
    rw [step_reset hm] at hs
    cases hs
    exact ne_idle_of_inFlight hu rfl
  have hparams : u.params = s.params := (step_params hs).trans h.params
  have hbuf : u.BuffersInv := step_buffersInv h.buffers hs
  have hpix (o : Nat) : u.pixelAt k o = s.pixelAt k o :=
    (step_pixelAt h.buffers hs hm (.inl h.own)).trans (h.pixels o)
  cases step_engine hs with
  | kept _ he hwire =>
    obtain ⟨heng, hcur, -, hown, hptr⟩ := he
    refine ⟨hcur.trans h.curBuf, (hown k).trans h.own, hparams, hbuf, hpix, ?_, ?_⟩
    · rw [hwire, hptr, h.wire]
    · rw [heng, hptr]; exact h.sent
  | emitted hsub hx =>
    refine ⟨(advance_curBuf t).trans h.curBuf, (own_advance t k).trans h.own, hparams, hbuf, hpix, ?_, fun hc => ?_⟩
    · simp only [emitted, advance_wire, advance_params, advance_curBuf, advance_xferPtr, pixelAt_advance, h.wire,
        h.params, h.curBuf, h.pixels, State.frameBytes, List.append_assoc]
    · simp [emitted, hsub] at hc
  | completed hsub hx =>
    refine ⟨(advance_curBuf t).trans h.curBuf, (own_advance t k).trans h.own, hparams, hbuf, hpix, ?_, fun _ => ?_⟩
    · rw [advance_wire, advance_xferPtr, h.wire]
    · rw [advance_xferPtr, hx, h.params]
  | submitted _ _ _ _ _ _ hidle => exact absurd hidle (ne_idle_of_inFlight ht)
  | configFault _ hidle => exact absurd hidle (ne_idle_of_inFlight ht)
  | failed => exact absurd rfl (ne_fault_of_inFlight hu)
  | reclaimed => exact absurd rfl (ne_idle_of_inFlight hu)
  | reset hreset => exact absurd hreset hm

/-- A run that stays in flight after its first step keeps the transfer that step started. -/
theorem transferring_after {s : State} {k : BufIdx} {n : Nat} (h : Transferring s k (s.after 1)) (hn : 1 ≤ n)
    (hrun : ∀ m, 1 ≤ m → m ≤ n → (s.after m).InFlight) : Transferring s k (s.after n) := by
  induction n, hn using Nat.le_induction with
  | base => exact h
  | succ n hn ih =>
    have hprev := ih fun m h1 hm => hrun m h1 (by omega)
    rcases after_next_or_stay s n with hs | hs
    · exact transferring_step hprev (hrun n hn (by omega)) hs (hrun (n + 1) (by omega) le_rfl)
    · rwa [hs]

/-- A SUBMIT from IDLE that leaves the engine SUBMITTED has handed its buffer over. -/
theorem transferring_of_submit {s t : State} {k : BufIdx} (h : s.BuffersInv) (hidle : s.engState = .idle)
    (hev : s.Evaluates (.submit k)) (hs : step s = .next t) (ht : t.engState = .submitted) :
    Transferring s k t := by
  cases step_engine hs with
  | kept _ he => rw [he.1, hidle] at ht; cases ht
  | submitted j w u hw hd =>
    cases evaluates_unique hev ⟨w, (presents_evaluates hw).1, hd⟩
    exact transferring_handOff h hw k hs
  | emitted hsub => rw [hidle] at hsub; cases hsub
  | configFault | completed | failed | reclaimed | reset => cases ht

/-- A step that ends a transfer in IDLE, and is no reset, is the WAIT that reclaims the buffer. -/
theorem reclaimed_of_transferring {s t u : State} {k : BufIdx} (h : Transferring s k t) (ht : t.InFlight)
    (hm : t.nextMove ≠ .reset) (hs : step t = .next u) (hu : u.engState = .idle) :
    t.Evaluates (.wait k) ∧ u.result.toNat = k.toNat ∧ u.resultKind = .handle ∧ u.own k = .producer ∧
      (∀ o, u.pixelAt k o = s.pixelAt k o) ∧ u.wire = s.wire ++ s.frameBytes k s.params.cap := by
  have hpix (o : Nat) : u.pixelAt k o = s.pixelAt k o :=
    (step_pixelAt h.buffers hs hm (.inl h.own)).trans (h.pixels o)
  cases step_engine hs with
  | reclaimed w v hw hd hcomp =>
    obtain ⟨-, -, -, -, -, -, -, hwire, -⟩ := presents_frame hw
    obtain ⟨-, -, -, -, -, -, hkept, -⟩ := reclaim_frame k v
    obtain ⟨-, hprod, hresult, hkind⟩ := reclaim_returns k v
    rw [h.curBuf] at hd hpix ⊢
    refine ⟨⟨w, (presents_evaluates hw).1, hd⟩, hresult, hkind, hprod, hpix, ?_⟩
    rw [retire_wire, hkept, hwire, h.wire, h.sent hcomp]
  | kept _ he => exact absurd (he.1.symm.trans hu) (ne_idle_of_inFlight ht)
  | submitted _ _ _ _ _ _ hidle => exact absurd hidle (ne_idle_of_inFlight ht)
  | emitted hsub => simp [emitted, hsub] at hu
  | configFault | completed | failed => cases hu
  | reset hreset => exact absurd hreset hm

/-- Settles O52: SUBMIT starts the transfer, every step in flight keeps it, and the one step but a reset that ends it in
IDLE is the WAIT's reclaim. -/
theorem submitThenWaitReturnsBuffer : Obligations.SubmitThenWaitReturnsBuffer := by
  intro s k n h hidle hev hn hsub hrun hm hend
  have hflight : (s.after n).InFlight := hrun n hn le_rfl
  have hfirst : step s = .next (s.after 1) :=
    step_of_engState_ne (n := 0) (by rw [hsub, State.after, hidle]; simp)
  have hlast : step (s.after n) = .next (s.after (n + 1)) :=
    step_of_engState_ne (hend ▸ (ne_idle_of_inFlight hflight).symm)
  have hstart : Transferring s k (s.after 1) := transferring_of_submit h.buffers hidle hev hfirst hsub
  exact reclaimed_of_transferring (transferring_after hstart hn hrun) hflight hm hlast hend

end Sys2Proof.Machine

namespace Sys2Proof.Machine

/-! ### NOP and ERRCLR (43_control.md R170, R174) -/

theorem exec_nop (s : State) : exec .nop s = .next (retire s) := rfl

/-- ERRCLR's effect is the one a rejection with the code NONE would have: ERRCODE is written, and
the command retires. -/
theorem exec_errclr (s : State) : exec .errclr s = .next (rejected .none s) := rfl

/-- Retiring alone is the case where RESULT and RESULT_KIND are written with their own values. -/
theorem onlyResult_retire (s : State) : OnlyResult s (retire s) :=
  onlyResult_retire_writeResult s.result s.resultKind s

/-- Settles O35: NOP only retires. -/
theorem nopCommand : Obligations.NopCommand :=
  ⟨fun s => ⟨evalWord_encode .nop s, _, exec_nop s, ⟨rfl, rfl⟩, onlyResult_retire s⟩,
    illegalUnder_of_mask mask_N⟩

/-- Settles O37: ERRCLR has the frame of a rejection, with the code NONE. -/
theorem errclrCommand : Obligations.ErrclrCommand :=
  ⟨fun s => ⟨evalWord_encode .errclr s, _, exec_errclr s, onlyErrcode_rejected .none s⟩,
    illegalUnder_of_mask mask_N⟩

/-! ### STATUS (10_state.md R31, 43_control.md R172) -/

theorem exec_status (s : State) : exec .status s = .next (retire (writeResult (statusWord s) .status s)) := rfl

/-- Each field of the STATUS word, from bit 0 up: peel off the fields below it, then drop those above it. The topmost
has none above. -/
theorem statusWord_fields (s : State) :
    (statusWord s).extractLsb' 0 2 = engCode s.engState ∧ (statusWord s).extractLsb' 2 1 = s.curBuf ∧
    (statusWord s).extractLsb' 3 1 = 0 ∧ (statusWord s).extractLsb' 4 1 = ownerCode (s.own 0) ∧
    (statusWord s).extractLsb' 5 1 = own1Bit s ∧ (statusWord s).extractLsb' 6 2 = 0 ∧
    (statusWord s).extractLsb' 8 4 = errCode s.errcode ∧
    (statusWord s).extractLsb' 12 2 = causeCode s.faultCause ∧ (statusWord s).extractLsb' 14 1 = 0 ∧
    (statusWord s).extractLsb' 15 1 = formatBit s ∧ (statusWord s).extractLsb' 16 1 = nbuf2Bit s ∧
    (statusWord s).extractLsb' 17 15 = 0 := by
  unfold statusWord
  refine ⟨?_, ?_, ?_, ?_, ?_, ?_, ?_, ?_, ?_, ?_, ?_, ?topmost⟩
  all_goals repeat rw [BitVec.extractLsb'_append_eq_of_le (by omega)]
  case topmost => exact BitVec.extractLsb'_eq_self
  all_goals exact BitVec.extractLsb'_append_eq_right

theorem ownerCode_toNat (o : Owner) : (ownerCode o).toNat = if o = .engine then 1 else 0 := by
  cases o <;> rfl

/-- OWN1 reads 0 when NBUF = 1. -/
theorem own1Bit_toNat (s : State) :
    (own1Bit s).toNat = if s.params.nbuf = .two ∧ s.own 1 = .engine then 1 else 0 := by
  unfold own1Bit
  cases s.params.nbuf with
  | one => rfl
  | two => exact (ownerCode_toNat (s.own 1)).trans (by simp)

theorem formatBit_toNat (s : State) : (formatBit s).toNat = if s.params.format = .rgb666 then 1 else 0 := by
  unfold formatBit
  cases s.params.format <;> rfl

theorem nbuf2Bit_toNat (s : State) : (nbuf2Bit s).toNat = if s.params.nbuf = .two then 1 else 0 := by
  unfold nbuf2Bit
  cases s.params.nbuf <;> rfl

/-- Settles O36: STATUS writes the STATUS word, and each of its fields is the code of a piece of the state. -/
theorem statusCommand : Obligations.StatusCommand := by
  refine ⟨fun s => ⟨evalWord_encode .status s, _, exec_status s, rfl, onlyResult_retire_writeResult _ _ s, ?_⟩,
    illegalUnder_of_mask mask_N⟩
  obtain ⟨heng, hcur, hbit3, hown0, hown1, hbits6, herr, hcause, hbit14, hformat, hnbuf, hbits17⟩ :=
    statusWord_fields s
  rw [retire_result, writeResult_result, heng, hown0, hown1, herr, hcause, hformat, hnbuf]
  refine ⟨?engState, hcur, ownerCode_toNat (s.own 0), own1Bit_toNat s, ?errcode, ?faultCause, formatBit_toNat s,
    nbuf2Bit_toNat s, hbit3, hbits6, hbit14, hbits17⟩
  case engState => cases s.engState <;> rfl
  case errcode => cases s.errcode <;> rfl
  case faultCause => cases s.faultCause <;> rfl

end Sys2Proof.Machine

namespace Sys2Proof.Machine

/-! ### Rejections (60_exceptions.md R181) -/

/-- Settles O10: `reject` answers the state `rejected`, whose frame is that of a rejection. -/
theorem rejectionIsPrecise : Obligations.RejectionIsPrecise :=
  fun c s => ⟨rejected c s, reject_eq c s, onlyErrcode_rejected c s⟩

end Sys2Proof.Machine

namespace Sys2Proof.Machine

/-! ### RESET (70_reset_and_hazards.md R200, R202) -/

/-- Nothing is listed after RESET, so every element of either buffer reads as SENTINEL_PIXEL. -/
@[simp] theorem pixelAt_resetStep (s : State) (k : BufIdx) (o : Nat) :
    (resetStep s).pixelAt k o = s.params.sentinel := by
  rw [State.pixelAt, fb_resetStep, memory_read_nil, resetStep_params]

/-- RESET changes neither the parameters nor what the model records of the other agents. -/
theorem sameEnvironment_resetStep (s : State) : SameEnvironment s (resetStep s) :=
  ⟨resetStep_params s, resetStep_xportReady s, resetStep_schedule s, resetStep_drawn s⟩

/-- Settles O38: the move is always made, and `resetStep` says what each piece of state then holds. -/
theorem resetStepValues : Obligations.ResetStepValues :=
  fun s => ⟨resetStep s, rfl, resetStep_engState s, own_resetStep s, pixelAt_resetStep s, resetStep_curBuf s,
    resetStep_xferPtr s, resetStep_faultCause s, resetStep_errcode s, resetStep_result s, resetStep_resultKind s,
    resetStep_pending s, resetStep_wire s, sameEnvironment_resetStep s⟩

end Sys2Proof.Machine

namespace Sys2Proof

/-! ### Each command has one word (30_encoding.md R72 to R85) -/

/-- Settles O2: `decode_encode` is the statement. -/
theorem decodeAfterEncode : Obligations.DecodeAfterEncode := decode_encode

/-- One arm of the decoder, read backwards: the word is its format's word of its own fields, and the command the arm
gives is encoded as that format's word under the arm's opcode. -/
theorem encode_of_arm {w : Word} {n : Nat} {f : Format} {i j : Instr} (word : BitVec 4 → Word)
    (hn : (opField w).toNat = n) (h : checkReserved f w j = .command i)
    (hfields : reservedBits f w = 0 → word (opField w) = w) (hj : encode j = word (BitVec.ofNat 4 n)) :
    encode i = w := by
  obtain ⟨hr, rfl⟩ := checkReserved_command h
  rw [hj, ← opField_of_toNat hn, hfields hr]

/-- Settles O3: each arm of the decoder determines the word from the command it gives. -/
theorem encodeAfterDecode : Obligations.EncodeAfterDecode := by
  intro w i h
  unfold decode at h
  split at h
  case h_1 hn => exact encode_of_arm wordN hn h wordN_of_fields rfl
  case h_2 hn => exact encode_of_arm (wordP · _ _ _) hn h wordP_of_fields rfl
  case h_3 hn => exact encode_of_arm (wordP · _ _ _) hn h wordP_of_fields rfl
  case h_4 hn => exact encode_of_arm (wordS16 · _) hn h wordS16_of_fields rfl
  case h_5 hn => exact encode_of_arm (wordS18 · _) hn h wordS18_of_fields rfl
  case h_6 hn => exact encode_of_arm (wordM · _ _) hn h wordM_of_fields rfl
  case h_7 hn => exact encode_of_arm (wordM · _ _) hn h wordM_of_fields rfl
  case h_8 hn => exact encode_of_arm (wordX · _ _ _) hn h wordX_of_fields rfl
  case h_9 hn => exact encode_of_arm (wordX · _ _ _) hn h wordX_of_fields rfl
  case h_10 hn => exact encode_of_arm (wordT · _) hn h wordT_of_fields rfl
  case h_11 hn => exact encode_of_arm (wordT · _) hn h wordT_of_fields rfl
  case h_12 hn => exact encode_of_arm wordN hn h wordN_of_fields rfl
  case h_13 hn => exact encode_of_arm wordN hn h wordN_of_fields rfl
  case h_14 => cases h

/-! ### Words that are no command (30_encoding.md R81, R82, R85) -/

theorem checkReserved_illegal {f : Format} {w : Word} {i : Instr} :
    checkReserved f w i = .illegal ↔ reservedBits f w ≠ 0 := by
  simp [checkReserved]

theorem checkReserved_ne_reserved (f : Format) (w : Word) (i : Instr) : checkReserved f w i ≠ .reserved := by
  unfold checkReserved
  split <;> simp

/-- An opcode that no arm of the decoder names is reserved. -/
theorem decode_of_reserved_opcode {w : Word} (hop : 0xD ≤ (opField w).toNat) : decode w = .reserved := by
  unfold decode
  split
  case h_14 => rfl
  all_goals omega

/-- A word under any other opcode is Illegal exactly when its format's reserved field is not zero. -/
theorem decode_of_command_opcode {w : Word} (hop : (opField w).toNat < 0xD) :
    decode w ≠ .reserved ∧ (decode w = .illegal ↔ reservedBits (opcodeFormat (opField w)) w ≠ 0) := by
  unfold decode
  split
  case h_14 => simp only [imp_false] at *; omega
  all_goals
    rename_i hn
    exact ⟨checkReserved_ne_reserved _ w _, by simp only [opcodeFormat, hn]; exact checkReserved_illegal⟩

/-- The table of reserved fields, by opcode, as the masks of spec/opcode_table.json. -/
theorem reservedBits_opcodeFormat_ne_zero (w : Word) :
    ((opField w).toNat < 0xD ∧ reservedBits (opcodeFormat (opField w)) w ≠ 0) ↔
      (opField w = 0x0 ∧ w &&& 0x0FFFFFFF ≠ 0) ∨
      ((opField w = 0x1 ∨ opField w = 0x2) ∧ w &&& 0x0F000000 ≠ 0) ∨
      (opField w = 0x3 ∧ w &&& 0x0FFF0000 ≠ 0) ∨
      (opField w = 0x4 ∧ w &&& 0x0FFC0000 ≠ 0) ∨
      ((opField w = 0x5 ∨ opField w = 0x6 ∨ opField w = 0x7 ∨ opField w = 0x8) ∧
        w &&& 0x07FF0000 ≠ 0) ∨
      ((opField w = 0x9 ∨ opField w = 0xA) ∧ w &&& 0x07FFFFFF ≠ 0) ∨
      ((opField w = 0xB ∨ opField w = 0xC) ∧ w &&& 0x0FFFFFFF ≠ 0) := by
  simp only [ne_eq, mask_N, mask_P, mask_S16, mask_S18, mask_M, mask_T]
  generalize opField w = op
  obtain ⟨n, rfl⟩ : ∃ n : Fin 16, op = BitVec.ofFin n := ⟨op.toFin, rfl⟩
  fin_cases n <;> simp [opcodeFormat, reservedBits]

/-- Settles O4: the opcode decides between a reserved one and a format, and the format's reserved field between a
command and Illegal. -/
theorem decodeClassifiesEveryWord : Obligations.DecodeClassifiesEveryWord := by
  intro w
  refine ⟨⟨fun hres => ?_, decode_of_reserved_opcode⟩, ?_, ?_⟩
  · by_contra hop
    exact (decode_of_command_opcode (by omega)).1 hres
  · rw [← reservedBits_opcodeFormat_ne_zero]
    by_cases hop : (opField w).toNat < 0xD
    · simp [(decode_of_command_opcode hop).2, hop]
    · simp [decode_of_reserved_opcode (not_lt.mp hop), hop]
  · cases hd : decode w with
    | command i => exact .inl ⟨i, rfl, (fields_of_decode_command hd).1.symm⟩
    | reserved => exact .inr (.inl rfl)
    | illegal => exact .inr (.inr rfl)

/-! ### The assembler's words as numbers (30_encoding.md R72 to R78, R87) -/

/-- Fields side by side are a sum of numbers. -/
theorem toNat_append_eq_add {n m : Nat} (x : BitVec n) (y : BitVec m) :
    (x ++ y).toNat = x.toNat * 2 ^ m + y.toNat := by
  rw [BitVec.toNat_append, ← Nat.shiftLeft_add_eq_or_of_lt y.isLt, Nat.shiftLeft_eq]

theorem wordP_eq_sum (op : BitVec 4) {r g b : Nat} (hr : r ≤ 255) (hg : g ≤ 255) (hb : b ≤ 255) :
    wordP op (BitVec.ofNat 8 r) (BitVec.ofNat 8 g) (BitVec.ofNat 8 b) =
      BitVec.ofNat 32 (op.toNat * 2 ^ 28 + r * 2 ^ 16 + g * 2 ^ 8 + b) := by
  apply BitVec.eq_of_toNat_eq
  have := op.isLt
  simp only [wordP, toNat_append_eq_add, BitVec.toNat_ofNat]
  omega

theorem wordS16_eq_sum (op : BitVec 4) {p : Nat} (hp : p ≤ 0xFFFF) :
    wordS16 op (BitVec.ofNat 16 p) = BitVec.ofNat 32 (op.toNat * 2 ^ 28 + p) := by
  apply BitVec.eq_of_toNat_eq
  have := op.isLt
  simp only [wordS16, toNat_append_eq_add, BitVec.toNat_ofNat]
  omega

theorem wordS18_eq_sum (op : BitVec 4) {p : Nat} (hp : p ≤ 0x3FFFF) :
    wordS18 op (BitVec.ofNat 18 p) = BitVec.ofNat 32 (op.toNat * 2 ^ 28 + p) := by
  apply BitVec.eq_of_toNat_eq
  have := op.isLt
  simp only [wordS18, toNat_append_eq_add, BitVec.toNat_ofNat]
  omega

theorem wordM_eq_sum (op : BitVec 4) {k o : Nat} (hk : k ≤ 1) (ho : o ≤ 65535) :
    wordM op (BitVec.ofNat 1 k) (BitVec.ofNat 16 o) = BitVec.ofNat 32 (op.toNat * 2 ^ 28 + k * 2 ^ 27 + o) := by
  apply BitVec.eq_of_toNat_eq
  have := op.isLt
  simp only [wordM, toNat_append_eq_add, BitVec.toNat_ofNat]
  omega

theorem wordX_eq_sum (op : BitVec 4) {k x y : Nat} (hk : k ≤ 1) (hx : x ≤ 255) (hy : y ≤ 255) :
    wordX op (BitVec.ofNat 1 k) (BitVec.ofNat 8 x) (BitVec.ofNat 8 y) =
      BitVec.ofNat 32 (op.toNat * 2 ^ 28 + k * 2 ^ 27 + y * 2 ^ 8 + x) := by
  apply BitVec.eq_of_toNat_eq
  have := op.isLt
  simp only [wordX, toNat_append_eq_add, BitVec.toNat_ofNat]
  omega

theorem wordT_eq_sum (op : BitVec 4) {k : Nat} (hk : k ≤ 1) :
    wordT op (BitVec.ofNat 1 k) = BitVec.ofNat 32 (op.toNat * 2 ^ 28 + k * 2 ^ 27) := by
  apply BitVec.eq_of_toNat_eq
  have := op.isLt
  simp only [wordT, toNat_append_eq_add, BitVec.toNat_ofNat]
  omega

/-- A line of one command assembles to that command's word where its operands fit, and to nothing where they do not. -/
theorem assemble_of_fits {f : PixelFormat} {l : Line} {i : Instr} {w : Word} {p : Prop} [Decidable p]
    (hwf : l.wellFormed = true ↔ p) (hex : l.expand f = [i]) (hw : p → encode i = w) :
    assemble f l = if p then some [w] else none := by
  unfold assemble
  by_cases hp : p
  · simp [hwf.mpr hp, hp, hex, hw hp]
  · simp [Bool.eq_false_iff.mpr (mt hwf.mp hp), hp]

theorem fitsBuffer_iff {k : Nat} : fitsBuffer k = true ↔ k ≤ 1 := decide_eq_true_iff

theorem fitsByte_iff {v : Nat} : fitsByte v = true ↔ v ≤ 255 := decide_eq_true_iff

theorem fitsOffset_iff {o : Nat} : fitsOffset o = true ↔ o ≤ 65535 := decide_eq_true_iff

/-- Settles O5: the operand ranges of each line are those of its fields, where the word is the sum of its fields. -/
theorem assemblerPlacesOperands : Obligations.AssemblerPlacesOperands := by
  intro f r g b p k o x y
  have hbytes {u v w : Nat} : (fitsByte u && fitsByte v && fitsByte w) = true ↔ u ≤ 255 ∧ v ≤ 255 ∧ w ≤ 255 := by
    simp [fitsByte_iff, and_assoc]
  have hoffset : (fitsBuffer k && fitsOffset o) = true ↔ k ≤ 1 ∧ o ≤ 65535 := by
    simp [fitsBuffer_iff, fitsOffset_iff]
  have hcoords : (fitsBuffer k && fitsByte x && fitsByte y) = true ↔ k ≤ 1 ∧ x ≤ 255 ∧ y ≤ 255 := by
    simp [fitsBuffer_iff, fitsByte_iff, and_assoc]
  exact ⟨rfl,
    assemble_of_fits hbytes rfl fun ⟨hr, hg, hb⟩ => wordP_eq_sum 0x1 hr hg hb,
    assemble_of_fits hbytes rfl fun ⟨hr, hg, hb⟩ => wordP_eq_sum 0x2 hr hg hb,
    assemble_of_fits decide_eq_true_iff rfl fun hp => wordS16_eq_sum 0x3 hp,
    assemble_of_fits decide_eq_true_iff rfl fun hp => wordS18_eq_sum 0x4 hp,
    assemble_of_fits hoffset rfl fun ⟨hk, ho⟩ => wordM_eq_sum 0x5 hk ho,
    assemble_of_fits hoffset rfl fun ⟨hk, ho⟩ => wordM_eq_sum 0x6 hk ho,
    assemble_of_fits hcoords rfl fun ⟨hk, hx, hy⟩ => wordX_eq_sum 0x7 hk hx hy,
    assemble_of_fits hcoords rfl fun ⟨hk, hx, hy⟩ => wordX_eq_sum 0x8 hk hx hy,
    assemble_of_fits fitsBuffer_iff rfl fun hk => wordT_eq_sum 0x9 hk,
    assemble_of_fits fitsBuffer_iff rfl fun hk => wordT_eq_sum 0xA hk, rfl, rfl⟩

/-- Settles O1: each example word is the encoding of its command; the other three have a nonzero reserved field or a
reserved opcode. -/
theorem specWordsDecode : Obligations.SpecWordsDecode :=
  ⟨decode_encode .nop, decode_encode (.pack565 0x12 0x34 0x56), decode_encode (.pack666 0x12 0x34 0x56),
    decode_encode (.split565 0x11AA), decode_encode (.split666 0x4355), decode_encode (.fbwr 1 5),
    decode_encode (.fbrd 0 5), decode_encode (.fbwrxy 0 3 2), decode_encode (.fbrdxy 1 3 2),
    decode_encode (.submit 1), decode_encode (.wait 0), decode_encode .status, decode_encode .errclr,
    rfl, rfl, rfl⟩

end Sys2Proof

namespace Sys2Proof.Machine

/-! ### The transitions of ENG_STATE (42_transfer.md R140) -/

/-- Every way a step treats the engine, as `EngineEffect`, with the whole condition of each transition. -/
inductive EngineStep (s : State) : State → Prop where
  | kept (t : State) (he : SameEngine s t) (hwire : t.wire = s.wire) : EngineStep s t
  | submitted (k : BufIdx) (w : Word) (u : State) (hw : Presents s w u) (hd : decode w = .command (.submit k))
      (hk : k.toNat < s.params.nbuf.count) (hidle : s.engState = .idle) (hready : u.xportReady = true) :
      EngineStep s (retire (handOff k u))
  | configFault (k : BufIdx) (w : Word) (u : State) (hw : Presents s w u) (hd : decode w = .command (.submit k))
      (hk : k.toNat < s.params.nbuf.count) (hidle : s.engState = .idle) (hready : u.xportReady = false) :
      EngineStep s (configFault u)
  | emitted (hm : s.nextMove = .emit) (hs : s.engState = .submitted) (hx : s.xferPtr < s.params.cap) :
      EngineStep s (emitted s.advance)
  | completed (hm : s.nextMove = .done) (hs : s.engState = .submitted) (hx : s.xferPtr = s.params.cap) :
      EngineStep s { s.advance with engState := .completing }
  | failed (hm : s.nextMove = .xerr) (hs : s.engState = .submitted) : EngineStep s (enterFault .transfer s.advance)
  | reclaimed (w : Word) (u : State) (hw : Presents s w u) (hd : decode w = .command (.wait s.curBuf))
      (hcomp : s.engState = .completing) : EngineStep s (retire (reclaim s.curBuf u))
  | reset (hm : s.nextMove = .reset) : EngineStep s (resetStep s.advance)

/-- Evaluating a word without touching the engine or the wire is a step that leaves both alone. -/
theorem engineStep_kept {s t u : State} {w : Word} (hw : Presents s w u) (he : SameEngine u t)
    (hwire : t.wire = u.wire) : EngineStep s t := by
  obtain ⟨-, -, -, -, -, -, -, hwire', -⟩ := presents_frame hw
  exact .kept t (sameEngine_trans (presents_sameEngine hw) he) (hwire.trans hwire')

theorem engineStep_stored {s u : State} {w : Word} (hw : Presents s w u) (k : BufIdx) (o : Nat) :
    EngineStep s (stored k o u) := by
  obtain ⟨-, -, -, he, hwire, -⟩ := stored_frame k o u
  exact engineStep_kept hw he hwire

/-- The inversion lemma of `step` for the transitions. -/
theorem step_engineStep {s t : State} (hs : step s = .next t) : EngineStep s t := by
  cases step_cases hs with
  | command w i u _ hw hd he =>
    obtain ⟨heng, hcur, -, -, -, -, -, -, hp, -⟩ := presents_frame hw
    cases he with
    | submitted k hk hidle hready => exact .submitted k w u hw hd (hp ▸ hk) (heng ▸ hidle) hready
    | configFault k hk hidle hready => exact .configFault k w u hw hd (hp ▸ hk) (heng ▸ hidle) hready
    | reclaimed hk hcomp =>
      rw [hcur] at hd ⊢
      exact .reclaimed w u hw hd (heng ▸ hcomp)
    | fbwr k o => exact engineStep_stored hw k o.toNat
    | fbwrxy k x y => exact engineStep_stored hw k (coordOffset x y u)
    | _ => exact engineStep_kept hw ⟨rfl, rfl, rfl, fun _ => rfl, rfl⟩ rfl
  | illegal w u hw => exact engineStep_kept hw ⟨rfl, rfl, rfl, fun _ => rfl, rfl⟩ rfl
  | passed => exact .kept _ (advance_sameEngine s) (advance_wire s)
  | emitted hm hq hsub hown hx => exact .emitted hm hsub hx
  | completed hm hq hsub hx => exact .completed hm hsub hx
  | failed hm hq hsub => exact .failed hm hsub
  | reset hm => exact .reset hm

theorem evaluates_of_presents {s u : State} {w : Word} {i : Instr} (hw : Presents s w u)
    (hd : decode w = .command i) : s.Evaluates i :=
  ⟨w, (presents_evaluates hw).1, hd⟩

/-- With only a WAIT ever left in PENDING, a SUBMIT is evaluated in the step that issues it. -/
theorem issued_of_submit {s u : State} {w : Word} {k : BufIdx} (h : s.PendingInv) (hw : Presents s w u)
    (hd : decode w = .command (.submit k)) : s.nextMove = .host w u.xportReady ∧ s.pending = none := by
  cases hw with
  | issued ready hm hp => exact ⟨hm, hp⟩
  | pending hm hp =>
    have hwait := (h w hp).1
    rw [hd] at hwait
    cases hwait

/-- Settles O43: each transition is one case of the inversion lemma; the other steps keep ENG_STATE. -/
theorem engineMovesOnlyByTable : Obligations.EngineMovesOnlyByTable := by
  intro s t hpend hs hne
  cases step_engineStep hs with
  | kept _ he => exact absurd he.1 hne
  | emitted => exact absurd (advance_engState s) hne
  | submitted k w u hw hd hk hidle hready =>
    obtain ⟨hm, hp⟩ := issued_of_submit hpend hw hd
    exact .inl ⟨k, w, hidle, rfl, hready ▸ hm, hp, hd, hk, (own_handOff k k u).trans (if_pos rfl), rfl, rfl,
      toNat_handle k⟩
  | configFault k w u hw hd hk hidle hready =>
    obtain ⟨hm, hp⟩ := issued_of_submit hpend hw hd
    exact .inr (.inl ⟨k, w, hidle, rfl, hready ▸ hm, hp, hd, hk, rfl, rfl⟩)
  | completed hm hsub hx => exact .inr (.inr (.inl ⟨hsub, rfl, hm, hx⟩))
  | failed hm hsub => exact .inr (.inr (.inr (.inl ⟨hsub, rfl, hm, rfl⟩)))
  | reclaimed w u hw hd hcomp =>
    obtain ⟨-, hprod, hresult, -⟩ := reclaim_returns s.curBuf u
    exact .inr (.inr (.inr (.inr (.inl ⟨hcomp, rfl, evaluates_of_presents hw hd, hprod, hresult⟩))))
  | reset hm => exact .inr (.inr (.inr (.inr (.inr ⟨rfl, hm⟩))))

/-- An owner after a step: as it was, or the engine by a SUBMIT, or the producer by a WAIT or RESET. -/
theorem step_own {s t : State} (hs : step s = .next t) (k : BufIdx) :
    t.own k = s.own k ∨ (t.own k = .engine ∧ s.engState = .idle ∧ s.Evaluates (.submit k)) ∨
      (t.own k = .producer ∧ ((s.engState = .completing ∧ s.Evaluates (.wait k)) ∨ s.nextMove = .reset)) := by
  cases step_engineStep hs with
  | kept _ he =>
    obtain ⟨-, -, -, hown, -⟩ := he
    exact .inl (hown k)
  | submitted j w u hw hd hk hidle =>
    by_cases hkj : k = j
    · subst hkj
      exact .inr (.inl ⟨(own_handOff k k u).trans (if_pos rfl), hidle, evaluates_of_presents hw hd⟩)
    · obtain ⟨-, -, -, hown, -⟩ := presents_sameEngine hw
      exact .inl (((own_handOff j k u).trans (if_neg hkj)).trans (hown k))
  | configFault j w u hw =>
    obtain ⟨-, -, -, hown, -⟩ := presents_sameEngine hw
    exact .inl (hown k)
  | emitted | completed | failed => exact .inl (own_advance s k)
  | reclaimed w u hw hd hcomp =>
    by_cases hk : k = s.curBuf
    · subst hk
      exact .inr (.inr ⟨(own_reclaim _ _ u).trans (if_pos rfl), .inl ⟨hcomp, evaluates_of_presents hw hd⟩⟩)
    · obtain ⟨-, -, -, hown, -⟩ := presents_sameEngine hw
      exact .inl (((own_reclaim _ k u).trans (if_neg hk)).trans (hown k))
  | reset hm => exact .inr (.inr ⟨own_resetStep s.advance k, .inr hm⟩)

/-- Settles O44: read off `step_own`. -/
theorem ownersChangeOnlyAtHandOff : Obligations.OwnersChangeOnlyAtHandOff := by
  intro s t k hs
  rcases step_own hs k with hkept | ⟨hengine, hsubmit⟩ | ⟨hproducer, hback⟩
  · constructor <;> simp +contextual [hkept]
  · exact ⟨fun _ _ => hsubmit, by simp [hengine]⟩
  · exact ⟨by simp [hproducer], fun _ _ => hback⟩

/-- CUR_BUF after a step that is no reset: as it was, or the buffer a SUBMIT hands over (10_state.md R27). -/
theorem step_curBuf {s t : State} (hs : step s = .next t) (hm : s.nextMove ≠ .reset) :
    t.curBuf = s.curBuf ∨ (s.Evaluates (.submit t.curBuf) ∧ t.engState = .submitted) := by
  cases step_engineStep hs with
  | kept _ he =>
    obtain ⟨-, hcur, -⟩ := he
    exact .inl hcur
  | submitted k w u hw hd => exact .inr ⟨evaluates_of_presents hw hd, rfl⟩
  | configFault k w u hw =>
    obtain ⟨-, hcur, -⟩ := presents_sameEngine hw
    exact .inl hcur
  | emitted | completed | failed => exact .inl (advance_curBuf s)
  | reclaimed w u hw =>
    obtain ⟨-, hkept, -⟩ := reclaim_frame s.curBuf u
    obtain ⟨-, hcur, -⟩ := presents_sameEngine hw
    exact .inl (hkept.trans hcur)
  | reset hreset => exact absurd hreset hm

/-- FAULT_CAUSE after a step that is no reset: as it was, or set on entering FAULT from another state (10_state.md
R28). -/
theorem step_faultCause {s t : State} (hs : step s = .next t) (hm : s.nextMove ≠ .reset) :
    (t.faultCause = s.faultCause ∧ (t.engState = .fault ↔ s.engState = .fault)) ∨
      (t.faultCause ≠ .none ∧ t.engState = .fault ∧ s.engState ≠ .fault) := by
  cases step_engineStep hs with
  | kept _ he =>
    obtain ⟨heng, -, hcause, -⟩ := he
    exact .inl ⟨hcause, by rw [heng]⟩
  | submitted k w u hw hd hk hidle =>
    obtain ⟨-, -, hkept, -⟩ := handOff_frame k u
    obtain ⟨-, -, hcause, -⟩ := presents_sameEngine hw
    exact .inl ⟨hkept.trans hcause, iff_of_false (by simp [handOff]) (by simp [hidle])⟩
  | configFault k w u hw hd hk hidle => exact .inr ⟨by simp, rfl, by simp [hidle]⟩
  | emitted => exact .inl ⟨advance_faultCause s, by simp [emitted]⟩
  | completed hm hsub => exact .inl ⟨advance_faultCause s, by simp [hsub]⟩
  | failed hm hsub => exact .inr ⟨by simp [enterFault], rfl, by simp [hsub]⟩
  | reclaimed w u hw hd hcomp =>
    obtain ⟨-, -, -, hkept, -⟩ := reclaim_frame s.curBuf u
    obtain ⟨-, -, hcause, -⟩ := presents_sameEngine hw
    exact .inl ⟨hkept.trans hcause, iff_of_false (by simp [reclaim]) (by simp [hcomp])⟩
  | reset hreset => exact absurd hreset hm

/-- Settles O46: only the hand-off writes CUR_BUF, and a cause is set only on entering FAULT, where there was none. -/
theorem curBufAndCausePersist : Obligations.CurBufAndCausePersist := by
  intro s t hs hm
  refine ⟨fun hne => (step_curBuf hs hm).resolve_left hne, fun hcause hset => ?_⟩
  rcases step_faultCause hs hm with ⟨hkept, -⟩ | ⟨-, -, hne⟩
  · exact hkept
  · exact absurd (hcause.mpr hne) hset

/-- Settles O47: EMIT alone appends to the wire, and it appends the bytes of one pixel. -/
theorem wireGrowsOnlyByEmit : Obligations.WireGrowsOnlyByEmit := by
  intro s t hs
  cases step_engineStep hs with
  | kept _ he hwire => exact .inl hwire
  | emitted hm hsub hx =>
    refine .inr ⟨hm, hsub, pixelBytes s.advance.params.format (s.advance.pixelAt s.advance.curBuf s.advance.xferPtr),
      ?_, ?_⟩
    · simp [Machine.emitted]
    · rw [pixelBytes_length, advance_params]
  | submitted k w u hw =>
    obtain ⟨-, -, -, -, hkept, -⟩ := handOff_frame k u
    obtain ⟨-, -, -, -, -, -, -, hwire, -⟩ := presents_frame hw
    exact .inl (hkept.trans hwire)
  | configFault k w u hw =>
    obtain ⟨-, -, -, -, -, -, -, hwire, -⟩ := presents_frame hw
    exact .inl hwire
  | reclaimed w u hw =>
    obtain ⟨-, -, -, -, -, -, hkept, -⟩ := reclaim_frame s.curBuf u
    obtain ⟨-, -, -, -, -, -, -, hwire, -⟩ := presents_frame hw
    exact .inl (hkept.trans hwire)
  | completed | failed | reset => exact .inl (advance_wire s)

/-- Settles O48: every transition but RESET starts outside FAULT. -/
theorem faultIsLeftOnlyByReset : Obligations.FaultIsLeftOnlyByReset := by
  intro s t hfault hs hm
  cases step_engineStep hs with
  | kept _ he hwire =>
    obtain ⟨heng, hcur, hcause, hown, hptr⟩ := he
    exact ⟨heng.trans hfault, hcause, hown, hcur, hptr, hwire⟩
  | submitted _ _ _ _ _ _ hidle | configFault _ _ _ _ _ _ hidle => simp [hfault] at hidle
  | emitted _ hsub | completed _ hsub | failed _ hsub => simp [hfault] at hsub
  | reclaimed _ _ _ _ hcomp => simp [hfault] at hcomp
  | reset hreset => exact absurd hreset hm

/-! ### ERRCODE (10_state.md R25) -/

/-- A command leaves ERRCODE, or is the ERRCLR that clears it, or retires with a code and without any other effect on
RESULT, the contents of the buffers or their owners. -/
theorem commandEffect_errcode {i : Instr} {s t : State} (h : CommandEffect s i t) :
    t.errcode = s.errcode ∨ (i = .errclr ∧ t.errcode = .none) ∨
      (t.errcode ≠ .none ∧ t.pending = none ∧ SameResult s t ∧ SameBuffers s t ∧ ∀ k, t.own k = s.own k) := by
  cases h with
  | rejected i c hc => exact .inr (.inr ⟨hc, rfl, ⟨rfl, rfl⟩, fun _ _ => rfl, fun _ => rfl⟩)
  | configFault => exact .inr (.inr ⟨by simp, rfl, ⟨rfl, rfl⟩, fun _ _ => rfl, fun _ => rfl⟩)
  | errclr => exact .inr (.inl ⟨rfl, rfl⟩)
  | fbwr | fbwrxy | submitted | reclaimed => exact .inl (by simp [fbWrite, handOff, reclaim])
  | _ => exact .inl rfl

/-- Settles O45: the HOST's commands write ERRCODE, no TRANSPORT event does, and RESET is named apart. -/
theorem errcodeRecordsRejections : Obligations.ErrcodeRecordsRejections := by
  intro s t hs hne
  cases step_cases hs with
  | command w i u _ hw hd he =>
    obtain ⟨-, -, -, -, hresult, hkind, herr, -, -, hown, -, hpix⟩ := presents_frame hw
    rcases commandEffect_errcode he with hkept | ⟨rfl, hnone⟩ | ⟨hcode, hp, ⟨hresult', hkind'⟩, hbuf, hown'⟩
    · exact absurd (hkept.trans herr) hne
    · exact .inr (.inl ⟨hnone, evaluates_of_presents hw hd⟩)
    · exact .inr (.inr ⟨⟨w, (presents_evaluates hw).1⟩, hcode, hp, ⟨hresult'.trans hresult, hkind'.trans hkind⟩,
        fun k o => (hbuf k o).trans (hpix k o), fun k => (hown' k).trans (hown k)⟩)
  | illegal w u hw =>
    obtain ⟨-, -, -, -, hresult, hkind, -, -, -, hown, -, hpix⟩ := presents_frame hw
    exact .inr (.inr ⟨⟨w, (presents_evaluates hw).1⟩, by simp, rfl, ⟨hresult, hkind⟩, hpix, hown⟩)
  | passed | emitted | completed | failed => exact absurd (advance_errcode s) hne
  | reset hm => exact .inl hm

/-! ### PENDING (10_state.md R24) -/

/-- A pending command that leaves the step to the next move is the WAIT that holds. -/
theorem held_of_quiet {s : State} {w : Word} (hq : s.Quiet) (hp : s.pending = some w) :
    s.CurBufExists ∧ s.engState = .submitted ∧ decode w = .command (.wait s.curBuf) := by
  rcases hq with hnone | ⟨hk, hsub, v, hv, hd⟩
  · rw [hp] at hnone; cases hnone
  · rw [hp] at hv; cases hv
    exact ⟨hk, hsub, hd⟩

/-- A pending command that does not hold retires when it is evaluated. -/
theorem retires_of_not_quiet {s : State} {w : Word} (hq : ¬ s.Quiet) (hp : s.pending = some w) :
    ∃ t, evalWord w s = .next t ∧ t.pending = none := by
  obtain ⟨t, ht, hret | ⟨-, hd, hk, hsub⟩⟩ := evalWord_next w s
  · exact ⟨t, ht, hret⟩
  · exact absurd (.inr ⟨hk, hsub, w, hp, hd⟩) hq

/-- With a WAIT held, a step that is no reset leaves it in PENDING. -/
theorem step_held_pending {s t : State} {w : Word} (hq : s.Quiet) (hp : s.pending = some w)
    (hm : s.nextMove ≠ .reset) (hs : step s = .next t) : t.pending = some w := by
  cases step_cases hs with
  | command v i u _ hw | illegal v u hw =>
    cases hw with
    | issued _ _ hnone => rw [hp] at hnone; cases hnone
    | pending _ _ hq' => exact absurd hq hq'
  | passed | emitted | completed | failed => exact (advance_pending s).trans hp
  | reset hreset => exact absurd hreset hm

/-- With PENDING empty, the one command that stays there is the WAIT just issued that holds. -/
theorem step_pending_of_none {s t : State} (hp : s.pending = none) (hs : step s = .next t) :
    t.pending = none ∨ ∃ w ready, s.nextMove = .host w ready ∧ t.pending = some w ∧
      decode w = .command (.wait s.curBuf) ∧ s.engState = .submitted := by
  cases step_cases hs with
  | command w i u _ hw hd he =>
    rcases commandEffect_pending he with hnone | ⟨rfl, rfl, hsub⟩
    · exact .inl hnone
    · cases hw with
      | issued ready hm => exact .inr ⟨w, ready, hm, rfl, by simpa using hd, by simpa using hsub⟩
      | pending _ hsome => rw [hp] at hsome; cases hsome
  | illegal | reset => exact .inl rfl
  | passed | emitted | completed | failed => exact .inl ((advance_pending s).trans hp)

/-- The HOST's step with PENDING empty evaluates the word it issues. -/
theorem step_host {s : State} {w : Word} {ready : Bool} (hm : s.nextMove = .host w ready) (hp : s.pending = none) :
    step s = evalWord w (issued w ready s.advance) := by
  rw [step_quiet (.inl hp), hm]
  exact hostStep_none (by simpa using hp)

/-- A HOST move while a WAIT holds passes. -/
theorem step_host_held {s : State} {w v : Word} {ready : Bool} (hm : s.nextMove = .host w ready) (hq : s.Quiet)
    (hp : s.pending = some v) : step s = .next s.advance := by
  rw [step_quiet hq, hm]
  exact hostStep_some (by simpa using hp)

/-- Settles O50: an empty slot by `step_pending_of_none`; an occupied one by whether its command holds. -/
theorem pendingIsOneDeep : Obligations.PendingIsOneDeep := by
  intro s t hs
  refine ⟨fun hp => step_pending_of_none hp hs, fun w hp => ?_⟩
  by_cases hm : s.nextMove = .reset
  · rw [step_reset hm] at hs
    cases hs
    exact .inr ⟨rfl, .inl hm⟩
  by_cases hq : s.Quiet
  · obtain ⟨hk, hsub, hd⟩ := held_of_quiet hq hp
    refine .inl ⟨step_held_pending hq hp hm hs, hd, hsub, ?_⟩
    rintro ⟨v, ready, hhost⟩
    exact Host.Outcome.next.inj (hs.symm.trans (step_host_held hhost hq hp))
  · obtain ⟨u, hu, hret⟩ := retires_of_not_quiet hq hp
    rw [step_pending hm hp hq, hu] at hs
    cases hs
    exact .inr ⟨hret, .inr hu⟩

end Sys2Proof.Machine

namespace Sys2Proof.Machine

/-! ### The invariant after RESET (70_reset_and_hazards.md R200, R201) -/

theorem bufCount_pos (n : BufCount) : 0 < n.count := by
  cases n <;> decide

/-- With every register at its reset value and nothing listed in a buffer, the invariant holds, for all parameters in
range. -/
theorem inv_of_resetValues {s : State} (hwf : s.params.wf = true) (heng : s.engState = .idle) (hcur : s.curBuf = 0)
    (hcause : s.faultCause = .none) (hown : ∀ k, s.own k = .producer) (hptr : s.xferPtr = 0)
    (hfb : ∀ k, s.fb k = []) (hresult : s.result = 0) (hkind : s.resultKind = .none) (hpend : s.pending = none) :
    s.Inv where
  params := hwf
  curBuf := by rw [State.CurBufExists, hcur]; exact bufCount_pos _
  owner := ownershipInv_of_released (fun k _ => hown k) (not_engineHolds_of_idle heng)
  cause := by simp [State.CauseInv, hcause, heng]
  ptr := by simp [State.PtrInv, hptr, heng]
  result := by simp only [State.ResultInv, hkind, hresult]
  buffers := fun k => by rw [hfb]; exact ⟨rfl, by simp⟩
  second := fun _ => ⟨hown 1, hfb 1⟩
  pending := by simp [State.PendingInv, hpend]

theorem own_powerUp (p : Params) (k : BufIdx) : (State.powerUp p).own k = .producer := ite_self _

theorem fb_powerUp (p : Params) (k : BufIdx) : (State.powerUp p).fb k = [] := ite_self _

theorem inv_powerUp {p : Params} (hwf : p.wf = true) : (State.powerUp p).Inv :=
  inv_of_resetValues hwf rfl rfl rfl (own_powerUp p) rfl (fb_powerUp p) rfl rfl rfl

theorem inv_resetStep {s : State} (hwf : s.params.wf = true) : (resetStep s).Inv :=
  inv_of_resetValues hwf rfl rfl rfl (own_resetStep s) rfl (fb_resetStep s) rfl rfl rfl

/-- The reference parameters are in range, whatever the free sentinel. -/
theorem reference_wf : Config.reference.wf = true := by
  have hsentinel : Config.reference.sentinel.toNat < 2 ^ 16 := by
    rw [Config.reference, BitVec.toNat_setWidth_of_le (by decide)]
    exact Config.sentinel565.isLt
  have hfits : Config.reference.fits Config.reference.sentinel = true := decide_eq_true hsentinel
  rw [Params.wf, hfits]
  rfl

/-- Settles O39: the power-up state has the reset values, and they meet the invariant. -/
theorem powerUpMeetsInvariant : Obligations.PowerUpMeetsInvariant := by
  refine ⟨fun p hwf => ⟨inv_powerUp hwf, rfl, fun s hp hwire => ?_⟩, inv_powerUp reference_wf⟩
  rw [resetStep, hp, hwire]
  rfl

/-! ### Each part of the invariant, kept by every step -/

theorem step_curBufExists {s t : State} (h : s.Inv) (hs : step s = .next t) : t.CurBufExists := by
  rw [State.CurBufExists, step_params hs]
  cases step_engineStep hs with
  | kept _ he =>
    obtain ⟨-, hcur, -⟩ := he
    rw [hcur]; exact h.curBuf
  | submitted k w u hw hd hk => exact hk
  | configFault k w u hw =>
    obtain ⟨-, hcur, -⟩ := presents_sameEngine hw
    rw [configFault_curBuf, hcur]; exact h.curBuf
  | emitted | completed | failed => exact (advance_curBuf s).symm ▸ h.curBuf
  | reclaimed w u hw =>
    obtain ⟨-, hkept, -⟩ := reclaim_frame s.curBuf u
    obtain ⟨-, hcur, -⟩ := presents_sameEngine hw
    rw [retire_curBuf, hkept, hcur]; exact h.curBuf
  | reset => exact bufCount_pos _

theorem step_causeInv {s t : State} (h : s.CauseInv) (hs : step s = .next t) (hm : s.nextMove ≠ .reset) :
    t.CauseInv := by
  rcases step_faultCause hs hm with ⟨hcause, hfault⟩ | ⟨hset, hfault, -⟩
  · rw [State.CauseInv, hcause, ne_eq, hfault]
    exact h
  · exact iff_of_false hset (not_not_intro hfault)

theorem step_ptrInv {s t : State} (h : s.PtrInv) (hs : step s = .next t) : t.PtrInv := by
  rw [State.PtrInv, step_params hs]
  obtain ⟨hle, hcap⟩ := h
  cases step_engineStep hs with
  | kept _ he =>
    obtain ⟨heng, -, -, -, hptr⟩ := he
    rw [heng, hptr]
    exact ⟨hle, hcap⟩
  | submitted | reset => exact ⟨Nat.zero_le _, nofun⟩
  | configFault k w u hw =>
    obtain ⟨-, -, -, -, hptr⟩ := presents_sameEngine hw
    exact ⟨hptr.trans_le hle, nofun⟩
  | emitted hm hsub hx => simp [emitted, hsub, Nat.succ_le_of_lt hx]
  | completed hm hsub hx => simp [hx]
  | failed => exact ⟨(advance_xferPtr s).trans_le hle, nofun⟩
  | reclaimed w u hw =>
    obtain ⟨-, -, hkept, -⟩ := reclaim_frame s.curBuf u
    obtain ⟨-, -, -, -, hptr⟩ := presents_sameEngine hw
    exact ⟨(hkept.trans hptr).trans_le hle, nofun⟩

/-! ### RESULT by kind (10_state.md R22) -/

theorem resultInv_congr {s t : State} (hresult : t.result = s.result) (hkind : t.resultKind = s.resultKind)
    (h : s.ResultInv) : t.ResultInv := by
  rw [State.ResultInv, hresult, hkind]
  exact h

/-- A value widened to a word has no bit above its own width. -/
theorem extractLsb'_setWidth_eq_zero {n m : Nat} (x : BitVec n) (hnm : n + m ≤ 32) :
    (x.setWidth 32).extractLsb' n m = 0 := by
  rw [BitVec.extractLsb'_setWidth_of_le hnm, extractLsb'_eq_zero_of_le m x le_rfl]

/-- The reserved bits of STATUS are four of its fields (10_state.md R31). -/
theorem statusWord_reserved (s : State) : statusWord s &&& 0xFFFE40C8 = 0 := by
  obtain ⟨-, -, hbit3, -, -, hbits6, -, -, hbit14, -, -, hbits17⟩ := statusWord_fields s
  have h3 : statusWord s &&& 0x8 = 0 := (and_mask_eq_zero (by decide) (by decide)).mpr (congrArg BitVec.toNat hbit3)
  have h6 : statusWord s &&& 0xC0 = 0 := (and_mask_eq_zero (by decide) (by decide)).mpr (congrArg BitVec.toNat hbits6)
  have h14 : statusWord s &&& 0x4000 = 0 :=
    (and_mask_eq_zero (by decide) (by decide)).mpr (congrArg BitVec.toNat hbit14)
  have h17 : statusWord s &&& 0xFFFE0000 = 0 :=
    (and_mask_eq_zero (by decide) (by decide)).mpr (congrArg BitVec.toNat hbits17)
  calc statusWord s &&& 0xFFFE40C8
    _ = statusWord s &&& (0x8 ||| 0xC0 ||| 0x4000 ||| 0xFFFE0000) := rfl
    _ = 0 := by simp only [BitVec.and_or_distrib_left, h3, h6, h14, h17]; rfl

theorem fits_sentinel {p : Params} (h : p.wf = true) : p.fits p.sentinel = true := by
  rw [Params.wf, Bool.and_eq_true] at h
  obtain ⟨-, hfits⟩ := h
  exact hfits

/-- An element read into RESULT has no bit above PIXEL_BITS. -/
theorem resultInv_loaded {s : State} (hbuf : s.BuffersInv) (hwf : s.params.wf = true) (k : BufIdx) (o : Nat) :
    (loaded k o s).ResultInv := by
  have hfits : (s.pixelAt k o).toNat < 2 ^ s.params.pixelBits :=
    of_decide_eq_true (memory_read_fits (hbuf k) (fits_sentinel hwf) o)
  have hkind : (loaded k o s).resultKind = pixKind s := rfl
  rw [State.ResultInv, hkind, pixKind]
  cases hf : s.params.format with
  | rgb565 =>
    rw [Params.pixelBits, hf] at hfits
    apply BitVec.eq_of_toNat_eq
    show (((s.pixelAt k o).setWidth 32).extractLsb' 16 16).toNat = 0
    rw [BitVec.extractLsb'_toNat, BitVec.toNat_setWidth_of_le (by decide), Nat.shiftRight_eq_div_pow,
      Nat.div_eq_of_lt hfits]
  | rgb666 => exact extractLsb'_setWidth_eq_zero (s.pixelAt k o) (by decide)

/-- Every command that writes RESULT writes a value of its kind. -/
theorem commandEffect_resultInv {i : Instr} {s t : State} (h : s.ResultInv) (hbuf : s.BuffersInv)
    (hwf : s.params.wf = true) (he : CommandEffect s i t) : t.ResultInv := by
  cases he with
  | pack565 r g b => exact extractLsb'_setWidth_eq_zero (pack565 r g b) (by decide)
  | pack666 r g b => exact extractLsb'_setWidth_eq_zero (pack666 r g b) (by decide)
  | split565 p =>
    show (split565 p).extractLsb' 24 8 = 0
    rw [extractLsb'_split565 p (by decide), extractLsb'_eq_zero_of_le 8 p (by decide)]
  | split666 p => exact extractLsb'_split666_top p
  | fbrd k o => exact resultInv_loaded hbuf hwf k o.toNat
  | fbrdxy k x y => exact resultInv_loaded hbuf hwf k (coordOffset x y s)
  | submitted k | reclaimed => exact extractLsb'_setWidth_eq_zero _ (by decide)
  | status => exact statusWord_reserved s
  | fbwr | fbwrxy => exact resultInv_congr (by simp [fbWrite]) (by simp [fbWrite]) h
  | _ => exact resultInv_congr rfl rfl h

theorem step_resultInv {s t : State} (h : s.Inv) (hs : step s = .next t) : t.ResultInv := by
  cases step_cases hs with
  | command w i u _ hw hd he =>
    obtain ⟨-, -, -, -, hresult, hkind, -, -, hp, -, hfb, -⟩ := presents_frame hw
    have hbuf : u.BuffersInv := fun k => by rw [hfb, hp]; exact h.buffers k
    exact commandEffect_resultInv (resultInv_congr hresult hkind h.result) hbuf (hp ▸ h.params) he
  | illegal w u hw =>
    obtain ⟨-, -, -, -, hresult, hkind, -⟩ := presents_frame hw
    exact resultInv_congr hresult hkind h.result
  | passed | emitted | completed | failed =>
    exact resultInv_congr (advance_result s) (advance_resultKind s) h.result
  | reset => exact (inv_resetStep (s := s.advance) (by simpa using h.params)).result

/-! ### The second buffer with NBUF = 1 (log 9) -/

/-- With NBUF = 1 no command that passes its checks names the second buffer. -/
theorem commandEffect_secondBufferInv {i : Instr} {s t : State} (h : s.SecondBufferInv) (he : CommandEffect s i t) :
    t.SecondBufferInv := by
  intro hone
  rw [(commandEffect_frame he).2.1] at hone
  have hother {k : BufIdx} (hk : k.toNat < s.params.nbuf.count) : (1 : BufIdx) ≠ k := by
    rintro rfl
    rw [hone] at hk
    exact absurd hk (by decide)
  obtain ⟨hown, hfb⟩ : s.own 1 = .producer ∧ s.fb 1 = [] := h hone
  show t.own 1 = .producer ∧ t.fb 1 = []
  cases he with
  | fbwr k o hk =>
    exact ⟨(own_fbWrite k _ _ s 1).trans hown, ((fb_stored k _ s 1).trans (if_neg (hother hk))).trans hfb⟩
  | fbwrxy k x y hk =>
    exact ⟨(own_fbWrite k _ _ s 1).trans hown, ((fb_stored k _ s 1).trans (if_neg (hother hk))).trans hfb⟩
  | submitted k hk =>
    exact ⟨((own_handOff k 1 s).trans (if_neg (hother hk))).trans hown, (fb_setOwn s k 1 .engine).trans hfb⟩
  | reclaimed hk =>
    exact ⟨((own_reclaim _ 1 s).trans (if_neg (hother hk))).trans hown, (fb_setOwn s _ 1 .producer).trans hfb⟩
  | _ => exact ⟨hown, hfb⟩

theorem secondBufferInv_congr {s t : State} (hp : t.params = s.params) (hown : ∀ k, t.own k = s.own k)
    (hfb : ∀ k, t.fb k = s.fb k) (h : s.SecondBufferInv) : t.SecondBufferInv := by
  intro hone
  obtain ⟨hown1, hfb1⟩ := h (hp ▸ hone)
  exact ⟨(hown 1).trans hown1, (hfb 1).trans hfb1⟩

theorem step_secondBufferInv {s t : State} (h : s.SecondBufferInv) (hs : step s = .next t) : t.SecondBufferInv := by
  cases step_cases hs with
  | command w i u _ hw hd he =>
    obtain ⟨-, -, -, -, -, -, -, -, hp, hown, hfb, -⟩ := presents_frame hw
    exact commandEffect_secondBufferInv (secondBufferInv_congr hp hown hfb h) he
  | illegal w u hw =>
    obtain ⟨-, -, -, -, -, -, -, -, hp, hown, hfb, -⟩ := presents_frame hw
    exact secondBufferInv_congr hp hown hfb h
  | passed | emitted | completed | failed =>
    exact secondBufferInv_congr (advance_params s) (own_advance s) (fb_advance s) h
  | reset => exact fun _ => ⟨rfl, rfl⟩

/-! ### PENDING (10_state.md R24) -/

theorem pendingInv_of_none {s : State} (hp : s.pending = none) : s.PendingInv := by
  simp [State.PendingInv, hp]

/-- What is left in PENDING stays the WAIT on CUR_BUF while CUR_BUF stays and the engine does not go to IDLE. -/
theorem pendingInv_of_kept {s t : State} (hp : t.pending = s.pending) (hcur : t.curBuf = s.curBuf)
    (heng : s.engState ≠ .idle → t.engState ≠ .idle) (h : s.PendingInv) : t.PendingInv := by
  intro w hw
  obtain ⟨hd, hne⟩ := h w (hp ▸ hw)
  exact ⟨hcur ▸ hd, heng hne⟩

theorem step_pendingInv {s t : State} (h : s.PendingInv) (hs : step s = .next t) : t.PendingInv := by
  cases step_cases hs with
  | command w i u _ hw hd he =>
    rcases commandEffect_pending he with hnone | ⟨rfl, rfl, hsub⟩
    · exact pendingInv_of_none hnone
    · intro v hv
      rw [presents_pending hw] at hv
      cases hv
      exact ⟨hd, by simp [hsub]⟩
  | illegal | reset => exact pendingInv_of_none rfl
  | passed | emitted =>
    exact pendingInv_of_kept (advance_pending s) (advance_curBuf s) (by simp [emitted]) h
  | completed | failed => exact pendingInv_of_kept (advance_pending s) (advance_curBuf s) (fun _ => nofun) h

theorem step_inv {s t : State} (h : s.Inv) (hs : step s = .next t) : t.Inv := by
  by_cases hm : s.nextMove = .reset
  · rw [step_reset hm] at hs
    cases hs
    exact inv_resetStep (by simpa using h.params)
  exact
    { params := step_params hs ▸ h.params
      curBuf := step_curBufExists h hs
      owner := step_ownershipInv h.owner hs
      cause := step_causeInv h.cause hs hm
      ptr := step_ptrInv h.ptr hs
      result := step_resultInv h hs
      buffers := step_buffersInv h.buffers hs
      second := step_secondBufferInv h.second hs
      pending := step_pendingInv h.pending hs }

/-- Settles O40: `step_inv`, one lemma for each part of the invariant. -/
theorem stepKeepsInvariant : Obligations.StepKeepsInvariant := fun _ _ => step_inv

/-! ### Nothing stops (60_exceptions.md R188) -/

/-- EMIT calls the transport port on the submitted buffer, which the engine owns (20_memory.md R56). -/
theorem moveStep_next {s : State} (h : s.OwnershipInv) (hcur : s.CurBufExists) (m : Move) :
    ∃ t, moveStep m s = .next t := by
  cases m with
  | host w ready =>
    cases hp : s.pending with
    | none =>
      obtain ⟨t, ht, -⟩ := evalWord_next w (issued w ready s)
      exact ⟨t, (hostStep_none hp).trans ht⟩
    | some v => exact ⟨s, hostStep_some hp⟩
  | emit =>
    by_cases hen : s.engState = .submitted ∧ s.xferPtr < s.params.cap
    · obtain ⟨hsub, hx⟩ := hen
      exact ⟨_, emitEvent_enabled hsub ((h _ hcur).mpr ⟨rfl, engineHolds_of_submitted hsub⟩) hx⟩
    · exact ⟨s, (emitEvent_eq s).trans (if_neg hen)⟩
  | done | xerr | reset => exact ⟨_, rfl⟩

theorem step_next {s : State} (h : s.Inv) : ∃ t, step s = .next t := by
  by_cases hm : s.nextMove = .reset
  · exact ⟨_, step_reset hm⟩
  by_cases hq : s.Quiet
  · rw [step_quiet hq]
    exact moveStep_next (advance_ownershipInv h.owner) (by simpa [State.CurBufExists] using h.curBuf) _
  · cases hp : s.pending with
    | none => exact absurd (.inl hp) hq
    | some w =>
      obtain ⟨t, ht, -⟩ := evalWord_next w s
      exact ⟨t, (step_pending hm hp hq).trans ht⟩

/-- Settles O42: every command has an effect, and the one step that could stop is an EMIT of a buffer the engine does
not own. -/
theorem nothingStops : Obligations.NothingStops := by
  refine ⟨fun i s => ?_, fun _ => step_next⟩
  obtain ⟨t, ht, -⟩ := exec_effect i s
  exact ⟨t, ht⟩

end Sys2Proof.Machine

namespace Sys2Proof.Machine

/-! ### A buffer's contents replaced (41_framebuffer.md R124)

The operations that a command's effect is made of, with the contents of one buffer replaced before or after; then what
checks and effects read of the state apart from contents, which replacing contents does not change. -/

section
variable (s : State) (k : BufIdx) (m : Memory)

theorem setFb_retire : (retire s).setFb k m = retire (s.setFb k m) := by
  rcases bufIdx_cases k with rfl | rfl <;> rfl

theorem setFb_writeResult (v : Word) (kd : Kind) :
    (writeResult v kd s).setFb k m = writeResult v kd (s.setFb k m) := by
  rcases bufIdx_cases k with rfl | rfl <;> rfl

theorem setFb_rejected (c : ErrCode) : (rejected c s).setFb k m = rejected c (s.setFb k m) := by
  rcases bufIdx_cases k with rfl | rfl <;> rfl

theorem setFb_configFault : (configFault s).setFb k m = configFault (s.setFb k m) := by
  rcases bufIdx_cases k with rfl | rfl <;> rfl

theorem setFb_handOff (j : BufIdx) : (handOff j s).setFb k m = handOff j (s.setFb k m) := by
  rcases bufIdx_cases k with rfl | rfl <;> rcases bufIdx_cases j with rfl | rfl <;> rfl

theorem setFb_reclaim (j : BufIdx) : (reclaim j s).setFb k m = reclaim j (s.setFb k m) := by
  rcases bufIdx_cases k with rfl | rfl <;> rcases bufIdx_cases j with rfl | rfl <;> rfl

theorem setFb_setFb_of_ne {j : BufIdx} (hjk : j ≠ k) (n : Memory) :
    (s.setFb j n).setFb k m = (s.setFb k m).setFb j n := by
  rcases bufIdx_cases k with rfl | rfl <;> rcases bufIdx_cases j with rfl | rfl
  case inl.inr | inr.inl => rfl
  all_goals exact absurd rfl hjk

@[simp] theorem readChecks_setFb (j : BufIdx) (b : Bool) : readChecks j b (s.setFb k m) = readChecks j b s := by
  simp [readChecks, bufferExists]

@[simp] theorem pixKind_setFb : pixKind (s.setFb k m) = pixKind s := pixKind_congr (setFb_params s k m)

@[simp] theorem writeChecks_setFb (j : BufIdx) (b : Bool) : writeChecks j b (s.setFb k m) = writeChecks j b s := by
  simp [writeChecks]

@[simp] theorem submitChecks_setFb (j : BufIdx) : submitChecks j (s.setFb k m) = submitChecks j s := by
  simp [submitChecks, bufferExists]

@[simp] theorem waitChecks_setFb (j : BufIdx) : waitChecks j (s.setFb k m) = waitChecks j s := by
  simp [waitChecks, bufferExists]

@[simp] theorem offsetInBounds_setFb (o : BitVec 16) : offsetInBounds o (s.setFb k m) = offsetInBounds o s := by
  simp [offsetInBounds]

@[simp] theorem coordInBounds_setFb (x y : BitVec 8) : coordInBounds x y (s.setFb k m) = coordInBounds x y s := by
  simp [coordInBounds]

@[simp] theorem coordOffset_setFb (x y : BitVec 8) : coordOffset x y (s.setFb k m) = coordOffset x y s := by
  simp [coordOffset]

@[simp] theorem statusWord_setFb : statusWord (s.setFb k m) = statusWord s := by
  simp [statusWord, nbuf2Bit, formatBit, own1Bit]

theorem pixelAt_setFb_of_ne {j : BufIdx} (hjk : j ≠ k) (o : Nat) : (s.setFb k m).pixelAt j o = s.pixelAt j o :=
  pixelAt_of_fb ((fb_setFb s k j m).trans (if_neg hjk)) (setFb_params s k m) o

theorem setFb_loaded_of_ne {j : BufIdx} (hjk : j ≠ k) (o : Nat) :
    (loaded j o s).setFb k m = loaded j o (s.setFb k m) := by
  rw [loaded, loaded, setFb_retire, setFb_writeResult, pixelAt_setFb_of_ne s k m hjk, pixKind_setFb]

theorem setFb_stored_of_ne {j : BufIdx} (hjk : j ≠ k) (o : Nat) :
    (stored j o s).setFb k m = stored j o (s.setFb k m) := by
  rw [stored, stored, setFb_retire, fbWrite, fbWrite, setFb_setFb_of_ne s k m hjk, fb_setFb, if_neg hjk,
    setFb_params, resultPixel_congr (setFb_params s k m) (setFb_result s k m)]

end

/-! ### Commands that differ only in a hidden buffer -/

/-- `a` and `b` are next states that differ at most in the contents of buffer `k`, which are those of `s` in the first
and `m` in the second. -/
def AnswersAlike (k : BufIdx) (m : Memory) (s : State) (a b : Answer) : Prop :=
  ∃ t, a = .next t ∧ t.fb k = s.fb k ∧ b = .next (t.setFb k m)

section
variable {k : BufIdx} {m : Memory} {s : State}

/-- An effect that keeps the contents and does not read them answers alike. -/
theorem answersAlike_of_comm {f : State → State} (hkept : (f s).fb k = s.fb k)
    (hcomm : (f s).setFb k m = f (s.setFb k m)) : AnswersAlike k m s (.next (f s)) (.next (f (s.setFb k m))) :=
  ⟨f s, rfl, hkept, congrArg _ hcomm.symm⟩

theorem answersAlike_writeResult (v : Word) (kd : Kind) :
    AnswersAlike k m s (.next (retire (writeResult v kd s))) (.next (retire (writeResult v kd (s.setFb k m)))) :=
  answersAlike_of_comm (f := fun s => retire (writeResult v kd s)) rfl
    (by rw [setFb_retire, setFb_writeResult])

/-- Checks that agree reject alike, or leave it to the effects. -/
theorem answersAlike_unlessRejected {c : Option ErrCode} {effect effect' : State → Answer}
    (h : c = none → AnswersAlike k m s (effect s) (effect' (s.setFb k m))) :
    AnswersAlike k m s (unlessRejected c effect s) (unlessRejected c effect' (s.setFb k m)) := by
  cases c with
  | some c => exact answersAlike_of_comm (f := rejected c) rfl (setFb_rejected s k m c)
  | none => exact h rfl

variable (hown : s.own k = .engine)
include hown

/-- An access that passes its checks is to a buffer of the producer's, so to another one. -/
theorem ne_of_readChecks {j : BufIdx} {b : Bool} (h : readChecks j b s = none) : j ≠ k := by
  rintro rfl
  obtain ⟨-, -, hprod⟩ := readChecks_none.mp h
  rw [hown] at hprod
  cases hprod

theorem answersAlike_load {j : BufIdx} {b : Bool} (o : Nat) :
    AnswersAlike k m s (unlessRejected (readChecks j b s) (loadPixel j o) s)
      (unlessRejected (readChecks j b s) (loadPixel j o) (s.setFb k m)) :=
  answersAlike_unlessRejected fun h =>
    answersAlike_of_comm (f := loaded j o) rfl (setFb_loaded_of_ne s k m (ne_of_readChecks hown h) o)

theorem answersAlike_store {j : BufIdx} {b : Bool} (o : Nat) :
    AnswersAlike k m s (unlessRejected (writeChecks j b s) (storePixel j o) s)
      (unlessRejected (writeChecks j b s) (storePixel j o) (s.setFb k m)) :=
  answersAlike_unlessRejected fun h => by
    have hjk : j ≠ k := ne_of_readChecks hown (writeChecks_none.mp h).1
    exact answersAlike_of_comm (f := stored j o) ((fb_stored j o s k).trans (if_neg hjk.symm))
      (setFb_stored_of_ne s k m hjk o)

end

theorem answersAlike_submit (k : BufIdx) (m : Memory) (s : State) (j : BufIdx) :
    AnswersAlike k m s (exec (.submit j) s) (exec (.submit j) (s.setFb k m)) := by
  show AnswersAlike k m s (execSubmit j s) (execSubmit j (s.setFb k m))
  rw [execSubmit, execSubmit, submitChecks_setFb]
  refine answersAlike_unlessRejected fun _ => ?_
  cases hready : s.xportReady with
  | true =>
    rw [submitEffect_ready j hready, submitEffect_ready j ((setFb_xportReady s k m).trans hready)]
    exact answersAlike_of_comm (f := fun s => retire (handOff j s)) (fb_setOwn s j k .engine)
      (by rw [setFb_retire, setFb_handOff])
  | false =>
    rw [submitEffect_unready j hready, submitEffect_unready j ((setFb_xportReady s k m).trans hready)]
    exact answersAlike_of_comm rfl (setFb_configFault s k m)

theorem answersAlike_wait (k : BufIdx) (m : Memory) (s : State) (j : BufIdx) :
    AnswersAlike k m s (exec (.wait j) s) (exec (.wait j) (s.setFb k m)) := by
  show AnswersAlike k m s (execWait j s) (execWait j (s.setFb k m))
  rw [execWait, execWait, waitChecks_setFb]
  refine answersAlike_unlessRejected fun _ => ?_
  rw [setFb_engState]
  by_cases hsub : s.engState = .submitted
  · rw [if_pos hsub, if_pos hsub]
    exact answersAlike_of_comm (f := id) rfl rfl
  · rw [if_neg hsub, if_neg hsub]
    exact answersAlike_of_comm (f := fun s => retire (reclaim j s)) (fb_setOwn s j k .producer)
      (by rw [setFb_retire, setFb_reclaim])

/-- Settles O27: a command reads and writes contents only through an access that the ownership check lets pass, and
that check rejects the engine's buffer. -/
theorem engineBufferIsHiddenFromHost : Obligations.EngineBufferIsHiddenFromHost := by
  intro i s k m _ hown
  show AnswersAlike k m s (exec i s) (exec i (s.setFb k m))
  cases i with
  | nop => exact answersAlike_of_comm rfl (setFb_retire s k m)
  | pack565 | pack666 | split565 | split666 => exact answersAlike_writeResult _ _
  | fbwr j o =>
    simp only [exec, execFbwr, writeChecks_setFb, offsetInBounds_setFb]
    exact answersAlike_store hown _
  | fbrd j o =>
    simp only [exec, execFbrd, readChecks_setFb, offsetInBounds_setFb]
    exact answersAlike_load hown _
  | fbwrxy j x y =>
    simp only [exec, execFbwrxy, writeChecks_setFb, coordInBounds_setFb, coordOffset_setFb]
    exact answersAlike_store hown _
  | fbrdxy j x y =>
    simp only [exec, execFbrdxy, readChecks_setFb, coordInBounds_setFb, coordOffset_setFb]
    exact answersAlike_load hown _
  | submit j => exact answersAlike_submit k m s j
  | wait j => exact answersAlike_wait k m s j
  | status =>
    simp only [exec, execStatus, statusWord_setFb]
    exact answersAlike_writeResult _ _
  | errclr => exact answersAlike_of_comm (f := rejected .none) rfl (setFb_rejected s k m .none)

end Sys2Proof.Machine

namespace Sys2Proof.Machine

/-! ### The wire of a transfer in flight (20_memory.md R65) -/

/-- A SUBMITTED state with no pixel sent starts a transfer of its own. -/
theorem transferring_start {s : State} (h : s.Inv) (hsub : s.engState = .submitted) (hptr : s.xferPtr = 0) :
    Transferring s s.curBuf s where
  curBuf := rfl
  own := (h.owner _ h.curBuf).mpr ⟨rfl, engineHolds_of_submitted hsub⟩
  params := rfl
  buffers := h.buffers
  pixels := fun _ => rfl
  wire := by rw [hptr]; exact (List.append_nil _).symm
  sent := by simp [hsub]

/-- A run in flight keeps the transfer it starts in. -/
theorem transferring_run {s t : State} {k : BufIdx} {n : Nat} (h : Transferring s k t)
    (hrun : ∀ m, m ≤ n → (t.after m).InFlight) : Transferring s k (t.after n) := by
  induction n with
  | zero => exact h
  | succ n ih =>
    have hprev := ih fun m hm => hrun m (by omega)
    rcases after_next_or_stay t n with hs | hs
    · exact transferring_step hprev (hrun n (by omega)) hs (hrun (n + 1) le_rfl)
    · rwa [hs]

/-- Settles O51: `Transferring` is the invariant of a transfer, from its start. -/
theorem wireCarriesSubmittedFrame : Obligations.WireCarriesSubmittedFrame := by
  intro s n h hptr hrun
  have htr := transferring_run (transferring_start h (hrun 0 n.zero_le) hptr) fun m hm => .inl (hrun m hm)
  exact ⟨htr.curBuf, htr.wire, htr.pixels⟩

/-! ### Runs of scheduled moves -/

/-- The first of n + 1 steps, by the state it gives. -/
theorem after_succ_of_next {s t : State} (h : step s = .next t) (n : Nat) : s.after (n + 1) = t.after n := by
  rw [after_succ, stepOrStay_of_next h]

/-- The move drawn next depends on the model's own fields only. -/
theorem nextMove_congr {s t : State} (hsched : t.schedule = s.schedule) (hdrawn : t.drawn = s.drawn) :
    t.nextMove = s.nextMove := by
  rw [State.nextMove, State.nextMove, hsched, hdrawn]

/-- While a WAIT holds, a scheduled HOST move passes (42_transfer.md R151). -/
theorem step_scheduled_host_held {s : State} {w v : Word} {ready : Bool} {ms : List Move} (hq : s.Quiet)
    (hp : s.pending = some v) (hsched : s.schedule = .host w ready :: ms) :
    step s = .next { s with schedule := ms } :=
  (step_scheduled hq hsched).trans (hostStep_some (s := { s with schedule := ms }) hp)

/-- Settles O55: by induction on the HOST's moves, each of which passes. -/
theorem silentTransportHoldsWaitForever : Obligations.SilentTransportHoldsWaitForever := by
  intro s ms rest hsub hk hp hhost hsched
  induction ms generalizing s with
  | nil =>
    obtain rfl : s.schedule = rest := hsched
    rfl
  | cons m ms ih =>
    obtain ⟨w, ready, rfl⟩ := hhost m List.mem_cons_self
    have hstep := step_scheduled_host_held (quiet_of_held hk hsub hp) hp hsched
    calc s.after (ms.length + 1)
      _ = ({ s with schedule := ms ++ rest } : State).after ms.length := after_succ_of_next hstep _
      _ = { s with schedule := rest } :=
        ih _ hsub hk hp (fun m hm => hhost m (List.mem_cons_of_mem _ hm)) rfl

/-- The state a scheduled WAIT on CUR_BUF leaves when it holds. -/
theorem step_scheduled_wait_holds {s : State} {ready : Bool} {ms : List Move} (hk : s.CurBufExists)
    (hsub : s.engState = .submitted) (hp : s.pending = none)
    (hsched : s.schedule = .host (encode (.wait s.curBuf)) ready :: ms) :
    step s = .next (issued (encode (.wait s.curBuf)) ready { s with schedule := ms }) :=
  (step_scheduled_command hsched hp (decode_encode _)).trans
    (exec_held (s := issued (encode (.wait s.curBuf)) ready { s with schedule := ms }) hk hsub)

/-- A scheduled DONE after the last pixel. -/
theorem step_scheduled_done {s : State} {ms : List Move} (hq : s.Quiet) (hsub : s.engState = .submitted)
    (hx : s.xferPtr = s.params.cap) (hsched : s.schedule = .done :: ms) :
    step s = .next { s with schedule := ms, engState := .completing } :=
  (step_scheduled hq hsched).trans (congrArg _ (if_pos ⟨hsub, hx⟩))

/-- A WAIT released in COMPLETING reclaims the buffer in the next step, where no reset comes first. -/
theorem step_released_reclaims {s : State} (hk : s.CurBufExists) (hcomp : s.engState = .completing)
    (hp : s.pending = some (encode (.wait s.curBuf))) (hm : s.nextMove ≠ .reset) :
    step s = .next (retire (reclaim s.curBuf s)) :=
  (step_released hm hp (decode_encode _) (by simp [hcomp])).trans (exec_wait_reclaims hk hcomp)

/-- A scheduled WAIT on CUR_BUF in COMPLETING reclaims the buffer in its own step. -/
theorem step_scheduled_wait_reclaims {s : State} {ready : Bool} {ms : List Move} (hk : s.CurBufExists)
    (hcomp : s.engState = .completing) (hp : s.pending = none)
    (hsched : s.schedule = .host (encode (.wait s.curBuf)) ready :: ms) :
    step s = .next (retire (reclaim s.curBuf (issued (encode (.wait s.curBuf)) ready { s with schedule := ms }))) :=
  (step_scheduled_command hsched hp (decode_encode _)).trans
    (exec_wait_reclaims (s := issued (encode (.wait s.curBuf)) ready { s with schedule := ms }) hk hcomp)

/-- The state both orders of WAIT and DONE end in: DONE has come, and the WAIT has reclaimed the buffer. -/
def State.doneAndReclaimed (s : State) (ready : Bool) (rest : List Move) : State :=
  retire (reclaim s.curBuf
    (issued (encode (.wait s.curBuf)) ready { s with schedule := rest, engState := .completing }))

/-- Settles O33: hold, DONE and the released WAIT in three steps; DONE and the WAIT in two. -/
theorem waitBeforeDoneAgreesWithAfter : Obligations.WaitBeforeDoneAgreesWithAfter := by
  intro s ready rest hsub hx hk hp hm
  obtain ⟨hidle, hown, hresult, hkind⟩ := reclaim_returns s.curBuf
    (issued (encode (.wait s.curBuf)) ready { s with schedule := rest, engState := .completing })
  have hsched : (s.doneAndReclaimed ready rest).schedule = rest := by simp [State.doneAndReclaimed, reclaim]
  refine ⟨s.doneAndReclaimed ready rest, ?before, ?after, hidle, rfl, hown, hresult, hkind, hsched⟩
  case before =>
    have hhold := step_scheduled_wait_holds
      (s := { s with schedule := .host (encode (.wait s.curBuf)) ready :: .done :: rest }) hk hsub hp rfl
    have hdone := step_scheduled_done
      (s := issued (encode (.wait s.curBuf)) ready { s with schedule := .done :: rest })
      (quiet_of_held hk hsub rfl) hsub hx rfl
    have hreclaim := step_released_reclaims
      (s := issued (encode (.wait s.curBuf)) ready { s with schedule := rest, engState := .completing }) hk rfl rfl hm
    rw [after_succ_of_next hhold, after_succ_of_next hdone]
    exact after_succ_of_next hreclaim 0
  case after =>
    have hdone := step_scheduled_done
      (s := { s with schedule := .done :: .host (encode (.wait s.curBuf)) ready :: rest }) (.inl hp) hsub hx rfl
    have hreclaim := step_scheduled_wait_reclaims
      (s := { s with schedule := .host (encode (.wait s.curBuf)) ready :: rest, engState := .completing }) hk rfl hp rfl
    rw [after_succ_of_next hdone]
    exact after_succ_of_next hreclaim 0

end Sys2Proof.Machine

namespace Sys2Proof.Machine

/-! ### A synchronous transfer (30_encoding.md R88) -/

/-- `s` with the first `n` pixels of its current buffer sent, and the moves `ms` to come. -/
def State.withSent (s : State) (n : Nat) (ms : List Move) : State :=
  { s with wire := s.wire ++ s.frameBytes s.curBuf n, xferPtr := n, schedule := ms }

/-- EMIT sends one pixel more. -/
theorem emitted_withSent (s : State) (n : Nat) (ms : List Move) :
    emitted (s.withSent n ms) = s.withSent (n + 1) ms := by
  have happend : (s.wire ++ s.frameBytes s.curBuf n) ++ pixelBytes s.params.format (s.pixelAt s.curBuf n) =
      s.wire ++ s.frameBytes s.curBuf (n + 1) := List.append_assoc _ _ _
  rw [State.withSent, State.withSent, ← happend]
  rfl

theorem withSent_zero {s : State} (hptr : s.xferPtr = 0) : s.withSent 0 s.schedule = s := by
  have hwire : s.wire ++ s.frameBytes s.curBuf 0 = s.wire := List.append_nil _
  rw [State.withSent, hwire, ← hptr]

/-- `n` scheduled EMITs send the first `n` pixels while a WAIT holds. -/
theorem after_emits {s : State} {n : Nat} {ms : List Move} (hq : s.Quiet) (hsub : s.engState = .submitted)
    (hown : s.own s.curBuf = .engine) (hptr : s.xferPtr = 0) (hn : n ≤ s.params.cap)
    (hsched : s.schedule = List.replicate n .emit ++ ms) : s.after n = s.withSent n ms := by
  induction n generalizing ms with
  | zero =>
    obtain rfl : s.schedule = ms := hsched
    exact (withSent_zero hptr).symm
  | succ n ih =>
    have hprev : s.after n = s.withSent n (.emit :: ms) :=
      ih (by omega) (by rw [hsched, List.replicate_succ', List.append_assoc]; rfl)
    have hstep : step (s.withSent n (.emit :: ms)) = .next (emitted (s.withSent n ms)) :=
      (step_scheduled (s := s.withSent n (.emit :: ms)) hq rfl).trans
        (emitEvent_enabled (s := s.withSent n ms) hsub hown hn)
    show (s.after n).stepOrStay = _
    rw [hprev, stepOrStay_of_next hstep, emitted_withSent]

/-- The wire bytes of a buffer depend on its elements and the format. -/
theorem frameBytes_congr {s t : State} {k : BufIdx} (hp : t.params = s.params)
    (hpix : ∀ o, t.pixelAt k o = s.pixelAt k o) (n : Nat) : t.frameBytes k n = s.frameBytes k n := by
  induction n with
  | zero => rfl
  | succ n ih => rw [State.frameBytes, State.frameBytes, ih, hp, hpix]

/-- The state just after a SUBMIT of buffer `k` has handed it over, with `ms` to come. -/
def State.handedOff (s : State) (k : BufIdx) (ms : List Move) : State :=
  retire (handOff k (issued (encode (.submit k)) true { s with schedule := ms }))

theorem handedOff_schedule (s : State) (k : BufIdx) (ms ms' : List Move) :
    ({ s.handedOff k ms with schedule := ms' } : State) = s.handedOff k ms' := by
  rcases bufIdx_cases k with rfl | rfl <;> rfl

/-- The hand-off changes no more than 42_transfer.md R145 says. -/
theorem handedOff_frame (s : State) (k : BufIdx) (ms : List Move) :
    (∀ j, j ≠ k → (s.handedOff k ms).own j = s.own j) ∧ (s.handedOff k ms).params = s.params ∧
      (s.handedOff k ms).faultCause = s.faultCause ∧ (s.handedOff k ms).errcode = s.errcode ∧
      (s.handedOff k ms).wire = s.wire ∧ (s.handedOff k ms).schedule = ms ∧ (s.handedOff k ms).drawn = s.drawn ∧
      SameBuffers s (s.handedOff k ms) := by
  obtain ⟨hown, herr, hcause, hbuf, hwire, hp, -, hsched, hdrawn⟩ :=
    handOff_frame k (issued (encode (.submit k)) true { s with schedule := ms })
  exact ⟨hown, hp, hcause, herr, hwire, hsched, hdrawn, hbuf⟩

theorem step_scheduled_submit {s : State} {k : BufIdx} {ms : List Move} (hp : s.pending = none)
    (hidle : s.engState = .idle) (hk : k.toNat < s.params.nbuf.count)
    (hsched : s.schedule = .host (encode (.submit k)) true :: ms) : step s = .next (s.handedOff k ms) := by
  rw [step_scheduled_command hsched hp (decode_encode _)]
  exact (exec_submit_passes (s := issued (encode (.submit k)) true { s with schedule := ms }) hk hidle).trans
    (congrArg _ (submitEffect_ready k rfl))

/-- The hand-off, and a WAIT on the buffer that holds, with `ms` to come. -/
def State.handedOffAndWaiting (s : State) (k : BufIdx) (ready : Bool) (ms : List Move) : State :=
  issued (encode (.wait k)) ready (s.handedOff k ms)

theorem frameBytes_handedOffAndWaiting (s : State) (k : BufIdx) (ready : Bool) (ms : List Move) (n : Nat) :
    (s.handedOffAndWaiting k ready ms).frameBytes k n = s.frameBytes k n := by
  obtain ⟨-, hparams, -, -, -, -, -, hbuf⟩ := handedOff_frame s k ms
  exact frameBytes_congr (t := s.handedOffAndWaiting k ready ms) hparams (hbuf k) n

theorem after_submit_wait {s : State} {k : BufIdx} {ready : Bool} {ms : List Move} (hp : s.pending = none)
    (hidle : s.engState = .idle) (hk : k.toNat < s.params.nbuf.count)
    (hsched : s.schedule = .host (encode (.submit k)) true :: .host (encode (.wait k)) ready :: ms) :
    s.after 2 = s.handedOffAndWaiting k ready ms := by
  obtain ⟨-, hparams, -, -, -, hnext, -⟩ := handedOff_frame s k (.host (encode (.wait k)) ready :: ms)
  have hsubmit := step_scheduled_submit hp hidle hk hsched
  have hwait := step_scheduled_wait_holds (s := s.handedOff k (.host (encode (.wait k)) ready :: ms))
    (by rw [State.CurBufExists, hparams]; exact hk) rfl rfl hnext
  rw [handedOff_schedule] at hwait
  rw [after_succ_of_next hsubmit]
  exact after_succ_of_next hwait 0

/-- From a held WAIT with no pixel sent, an EMIT for each element, DONE, and the WAIT's retirement, where no reset comes
first. -/
theorem after_emits_done_wait {s : State} {k : BufIdx} {n : Nat} {rest : List Move} (hcur : s.curBuf = k)
    (hcap : s.params.cap = n) (hk : k.toNat < s.params.nbuf.count) (hsub : s.engState = .submitted)
    (hown : s.own k = .engine) (hptr : s.xferPtr = 0) (hp : s.pending = some (encode (.wait k)))
    (hsched : s.schedule = List.replicate n .emit ++ .done :: rest)
    (hm : ({ s with schedule := rest } : State).nextMove ≠ .reset) :
    s.after (n + 2) = retire (reclaim k { s.withSent n rest with engState := .completing }) := by
  subst hcur hcap
  have hq : s.Quiet := quiet_of_held hk hsub hp
  have hemits := after_emits hq hsub hown hptr le_rfl hsched
  have hdone := step_scheduled_done (s := s.withSent s.params.cap (.done :: rest)) hq hsub rfl rfl
  have hreclaim := step_released_reclaims (s := { s.withSent s.params.cap rest with engState := .completing })
    hk rfl hp hm
  rw [after_add, hemits, after_succ_of_next hdone]
  exact after_succ_of_next hreclaim 0

/-- The moves of a synchronous transfer after its SUBMIT and WAIT. -/
def transferMoves (n : Nat) (rest : List Move) : List Move := List.replicate n .emit ++ .done :: rest

/-- The state at the end of a synchronous transfer of buffer `k`, with `rest` to come. -/
def State.transferred (s : State) (k : BufIdx) (ready : Bool) (rest : List Move) : State :=
  retire (reclaim k
    { (s.handedOffAndWaiting k ready (transferMoves s.params.cap rest)).withSent s.params.cap rest with
      engState := .completing })

theorem after_synchronousTransfer {s : State} {k : BufIdx} {ready : Bool} {rest : List Move} (hp : s.pending = none)
    (hidle : s.engState = .idle) (hk : k.toNat < s.params.nbuf.count)
    (hsched : s.schedule = .host (encode (.submit k)) true :: .host (encode (.wait k)) ready ::
      transferMoves s.params.cap rest)
    (hm : ({ s with schedule := rest } : State).nextMove ≠ .reset) :
    s.after (s.params.cap + 4) = s.transferred k ready rest := by
  obtain ⟨-, hparams, -, -, -, hmoves, hdrawn, -⟩ := handedOff_frame s k (transferMoves s.params.cap rest)
  have hown : (s.handedOff k (transferMoves s.params.cap rest)).own k = .engine :=
    (own_handOff k k _).trans (if_pos rfl)
  have hk' : k.toNat < (s.handedOff k (transferMoves s.params.cap rest)).params.nbuf.count := by
    rw [hparams]; exact hk
  have hmove : ({ s.handedOff k (transferMoves s.params.cap rest) with schedule := rest } : State).nextMove =
      ({ s with schedule := rest } : State).nextMove := nextMove_congr rfl hdrawn
  rw [Nat.add_comm, show 4 + s.params.cap = 2 + (s.params.cap + 2) by omega, after_add,
    after_submit_wait hp hidle hk hsched]
  exact after_emits_done_wait (s := s.handedOffAndWaiting k ready (transferMoves s.params.cap rest)) rfl
    (congrArg Params.cap hparams) hk' rfl hown rfl rfl hmoves
    (ne_of_eq_of_ne hmove hm)

theorem pending_none_of_idle {s : State} (h : s.PendingInv) (hidle : s.engState = .idle) : s.pending = none := by
  cases hp : s.pending with
  | none => rfl
  | some w =>
    obtain ⟨-, hne⟩ := h w hp
    exact absurd hidle hne

/-- Settles O53: two steps hand over and hold, `CAP` + 2 steps send the frame and reclaim the buffer, and what the
hand-off changed the reclaim gives back. -/
theorem synchronousTransferCompletes : Obligations.SynchronousTransferCompletes := by
  intro s k ready rest h hidle hk hsched hm
  have hpend : s.pending = none := pending_none_of_idle h.pending hidle
  obtain ⟨hown, hparams, hcause, herr, hwire, -, -, hbuf⟩ := handedOff_frame s k (transferMoves s.params.cap rest)
  have hprod : s.own k = .producer := own_producer_of_ownershipInv h.owner (not_engineHolds_of_idle hidle) hk
  obtain ⟨heng, hown_k, hresult, hkind⟩ := reclaim_returns k
    { (s.handedOffAndWaiting k ready (transferMoves s.params.cap rest)).withSent s.params.cap rest with
      engState := .completing }
  obtain ⟨hown', hcur', hptr', hcause', herr', hbuf', hwire', -, -, hsched', -⟩ := reclaim_frame k
    { (s.handedOffAndWaiting k ready (transferMoves s.params.cap rest)).withSent s.params.cap rest with
      engState := .completing }
  refine ⟨s.transferred k ready rest, after_synchronousTransfer hpend hidle hk hsched hm, heng, fun j => ?owner,
    hcur', hcause'.trans hcause, hptr', hresult, hkind, rfl, fun j o => (hbuf' j o).trans (hbuf j o), ?wire,
    herr'.trans herr, hsched'⟩
  case owner =>
    by_cases hj : j = k
    · subst hj; exact hown_k.trans hprod.symm
    · exact (hown' j hj).trans (hown j hj)
  case wire =>
    exact hwire'.trans (congrArg₂ (· ++ ·) hwire (frameBytes_handedOffAndWaiting s k ready _ _))

end Sys2Proof.Machine

namespace Sys2Proof.Machine

/-! ### A held WAIT retires (42_transfer.md R163, 70_reset_and_hazards.md R212) -/

theorem after_inv {s : State} (h : s.Inv) (n : Nat) : (s.after n).Inv := after_of_step step_inv h n

/-- No step of a run from a state that meets the invariant stops. -/
theorem step_after {s : State} (h : s.Inv) (n : Nat) : step (s.after n) = .next (s.after (n + 1)) := by
  obtain ⟨t, ht⟩ := step_next (after_inv h n)
  rw [ht, State.after, stepOrStay_of_next ht]

section
variable {s t : State} {w : Word} (hp : s.pending = some w) (hs : step s = .next t) (hp' : t.pending = some w)
include hp hs hp'

/-- A command that is still pending after a step is a WAIT that held. -/
theorem quiet_of_still_pending : s.Quiet := by
  by_contra hq
  by_cases hm : s.nextMove = .reset
  · rw [step_reset hm] at hs
    cases hs
    cases hp'
  · obtain ⟨u, hu, hret⟩ := retires_of_not_quiet hq hp
    rw [step_pending hm hp hq, hu] at hs
    cases hs
    rw [hret] at hp'
    cases hp'

/-- While a WAIT stays held and the engine SUBMITTED, a step sends a pixel or is no TRANSPORT event. -/
theorem xferPtr_of_still_pending (hsub : t.engState = .submitted) :
    t.xferPtr = s.xferPtr + 1 ∨ (t.xferPtr = s.xferPtr ∧ ¬ s.TransportMoves) := by
  have hq : s.Quiet := quiet_of_still_pending hp hs hp'
  cases step_cases hs with
  | command _ _ _ _ hw | illegal _ _ hw =>
    cases hw with
    | issued _ _ hnone => rw [hp] at hnone; cases hnone
    | pending _ _ hq' => exact absurd hq hq'
  | passed _ _ hn => exact .inr ⟨advance_xferPtr s, hn⟩
  | emitted => exact .inl (congrArg (· + 1) (advance_xferPtr s))
  | completed | failed => cases hsub
  | reset => cases hp'

end

/-- A WAIT cannot stay pending for ever: each TRANSPORT event that the premise promises sends a pixel, and there are
at most `CAP` of them. -/
theorem not_pending_forever {s : State} {w : Word} (h : s.Inv) (hp : s.pending = some w) (hlive : s.TransportLive) :
    ¬ ∀ m, (s.after m).pending = s.pending := by
  intro hforever
  have hpend (m : Nat) : (s.after m).pending = some w := (hforever m).trans hp
  have hsub (m : Nat) : (s.after m).engState = .submitted := by
    obtain ⟨-, hsub, -⟩ := held_of_quiet (quiet_of_still_pending (hpend m) (step_after h m) (hpend (m + 1))) (hpend m)
    exact hsub
  have hptr (m : Nat) := xferPtr_of_still_pending (hpend m) (step_after h m) (hpend (m + 1)) (hsub (m + 1))
  have hmono : Monotone fun m => (s.after m).xferPtr :=
    monotone_nat_of_le_succ fun m => by rcases hptr m with hm | ⟨hm, -⟩ <;> omega
  have hgrows (j : Nat) : ∃ m, j ≤ (s.after m).xferPtr := by
    induction j with
    | zero => exact ⟨0, Nat.zero_le _⟩
    | succ j ih =>
      obtain ⟨m, hm⟩ := ih
      obtain ⟨n, hmn, hleft | hmoves⟩ := hlive m (fun i _ => hforever i) (hsub m)
      · exact absurd (hsub n) hleft
      · have hsent := (hptr n).resolve_right fun ⟨_, hn⟩ => hn hmoves
        have hle : (s.after m).xferPtr ≤ (s.after n).xferPtr := hmono hmn
        exact ⟨n + 1, by omega⟩
  obtain ⟨m, hm⟩ := hgrows (s.params.cap + 1)
  obtain ⟨hcap, -⟩ := (after_inv h m).ptr
  rw [after_params] at hcap
  omega

/-- What holds first and not for ever holds up to some step and not after it. -/
theorem exists_last_of_not_forall {P : Nat → Prop} (h0 : P 0) (h : ¬ ∀ m, P m) :
    ∃ n, (∀ m, m ≤ n → P m) ∧ ¬ P (n + 1) := by
  by_contra hnone
  push Not at hnone
  refine h fun m => ?_
  induction m using Nat.strong_induction_on with
  | _ m ih =>
    cases m with
    | zero => exact h0
    | succ n => exact hnone n fun i hi => ih i (by omega)

/-- A pending WAIT that retires by its own evaluation does so in COMPLETING or FAULT. -/
theorem engState_of_retires {s t : State} {w : Word} (h : s.PendingInv) (hk : s.CurBufExists)
    (hp : s.pending = some w) (heval : evalWord w s = .next t) (hret : t.pending = none) :
    s.engState = .completing ∨ s.engState = .fault := by
  obtain ⟨hd, hidle⟩ := h w hp
  cases heng : s.engState with
  | idle => exact absurd heng hidle
  | submitted =>
    rw [evalWord_command s hd, exec_held hk heng] at heval
    cases heval
    rw [hp] at hret
    cases hret
  | completing => exact .inl rfl
  | fault => exact .inr rfl

/-- Settles O54: the WAIT does not stay pending for ever, and the step that empties PENDING is a reset or the WAIT's own
retirement. -/
theorem heldWaitRetiresWhenTransportLive : Obligations.HeldWaitRetiresWhenTransportLive := by
  intro s h _ hp hlive
  obtain ⟨n, hbefore, hafter⟩ :=
    exists_last_of_not_forall (P := fun m => (s.after m).pending = s.pending) rfl (not_pending_forever h hp hlive)
  have hpn : (s.after n).pending = some (encode (.wait s.curBuf)) := (hbefore n le_rfl).trans hp
  obtain ⟨-, hslot⟩ := pendingIsOneDeep _ _ (step_after h n)
  rcases hslot _ hpn with ⟨hkept, -⟩ | ⟨hnone, hcause⟩
  · exact absurd (hkept.trans hp.symm) hafter
  · refine ⟨n, hbefore, hnone, hcause.imp_right fun heval => ?_⟩
    exact engState_of_retires (after_inv h n).pending (after_inv h n).curBuf hpn heval hnone

end Sys2Proof.Machine

namespace Sys2Proof.Machine

/-! ### Packed pixels as numbers (40_codec.md R113) -/

/-- Fields that do not overlap compose by addition: nothing carries. -/
theorem mul_two_pow_or_eq_add {a b k : Nat} (hb : b < 2 ^ k) : a * 2 ^ k ||| b = a * 2 ^ k + b := by
  rw [← Nat.shiftLeft_eq, Nat.shiftLeft_add_eq_or_of_lt hb]

/-- A truncated channel shifted into its field, as a number. -/
theorem toNat_packedField {w j k : Nat} (c : Byte) (hfit : c.toNat / 2 ^ j * 2 ^ k < 2 ^ w) :
    ((c >>> j).setWidth w <<< k).toNat = c.toNat / 2 ^ j * 2 ^ k := by
  have hle : c.toNat / 2 ^ j ≤ c.toNat / 2 ^ j * 2 ^ k := Nat.le_mul_of_pos_right _ (Nat.two_pow_pos k)
  rw [BitVec.toNat_shiftLeft, BitVec.toNat_setWidth, BitVec.toNat_ushiftRight, Nat.shiftRight_eq_div_pow,
    Nat.mod_eq_of_lt (hle.trans_lt hfit), Nat.shiftLeft_eq, Nat.mod_eq_of_lt hfit]

/-- The lowest field is not shifted. -/
theorem toNat_lowField {w j : Nat} (c : Byte) (hw : 8 ≤ w) :
    ((c >>> j).setWidth w).toNat = c.toNat / 2 ^ j := by
  rw [BitVec.toNat_setWidth_of_le hw, BitVec.toNat_ushiftRight, Nat.shiftRight_eq_div_pow]

theorem pack565_toNat (r g b : Byte) :
    (pack565 r g b).toNat = r.toNat / 8 * 2048 + g.toNat / 4 * 32 + b.toNat / 8 := by
  have hr := r.isLt
  have hg := g.isLt
  have hb := b.isLt
  rw [pack565, BitVec.toNat_or, BitVec.toNat_or, toNat_packedField r (by omega), toNat_packedField g (by omega),
    toNat_lowField b (by decide), Nat.or_assoc, mul_two_pow_or_eq_add (b := b.toNat / 2 ^ 3) (by omega),
    mul_two_pow_or_eq_add (by omega), ← Nat.add_assoc]
  rfl

theorem pack666_toNat (r g b : Byte) :
    (pack666 r g b).toNat = r.toNat / 4 * 4096 + g.toNat / 4 * 64 + b.toNat / 4 := by
  have hr := r.isLt
  have hg := g.isLt
  have hb := b.isLt
  rw [pack666, BitVec.toNat_or, BitVec.toNat_or, toNat_packedField r (by omega), toNat_packedField g (by omega),
    toNat_lowField b (by decide), Nat.or_assoc, mul_two_pow_or_eq_add (b := b.toNat / 2 ^ 2) (by omega),
    mul_two_pow_or_eq_add (by omega), ← Nat.add_assoc]
  rfl

/-- Settles O17: the fields of a packed pixel do not overlap, so their OR is their sum. -/
theorem packComposesByAddition : Obligations.PackComposesByAddition := fun r g b s =>
  ⟨⟨_, exec_pack565 r g b s, (BitVec.toNat_setWidth_of_le (by decide)).trans (pack565_toNat r g b)⟩,
    ⟨_, exec_pack666 r g b s, (BitVec.toNat_setWidth_of_le (by decide)).trans (pack666_toNat r g b)⟩⟩

/-! ### The fields of a packed pixel (40_codec.md R102, R104) -/

/-- A field of a value, as a quotient and a remainder. -/
theorem extractLsb'_toNat_eq {n : Nat} (x : BitVec n) (start len : Nat) :
    (x.extractLsb' start len).toNat = x.toNat / 2 ^ start % 2 ^ len := by
  rw [BitVec.extractLsb'_toNat, Nat.shiftRight_eq_div_pow]

/-- Fields that agree as numbers are equal. -/
theorem extractLsb'_eq_of_toNat {n m start start' len : Nat} {x : BitVec n} {y : BitVec m}
    (h : x.toNat / 2 ^ start % 2 ^ len = y.toNat / 2 ^ start' % 2 ^ len) :
    x.extractLsb' start len = y.extractLsb' start' len := by
  apply BitVec.eq_of_toNat_eq
  rw [extractLsb'_toNat_eq, extractLsb'_toNat_eq, h]

theorem pack565_fields (r g b : Byte) :
    (pack565 r g b).extractLsb' 11 5 = r.extractLsb' 3 5 ∧ (pack565 r g b).extractLsb' 5 6 = g.extractLsb' 2 6 ∧
      (pack565 r g b).extractLsb' 0 5 = b.extractLsb' 3 5 := by
  have hr := r.isLt
  have hg := g.isLt
  have hb := b.isLt
  refine ⟨extractLsb'_eq_of_toNat ?_, extractLsb'_eq_of_toNat ?_, extractLsb'_eq_of_toNat ?_⟩
  all_goals
    rw [pack565_toNat]
    omega

theorem pack666_fields (r g b : Byte) :
    (pack666 r g b).extractLsb' 12 6 = r.extractLsb' 2 6 ∧ (pack666 r g b).extractLsb' 6 6 = g.extractLsb' 2 6 ∧
      (pack666 r g b).extractLsb' 0 6 = b.extractLsb' 2 6 := by
  have hr := r.isLt
  have hg := g.isLt
  have hb := b.isLt
  refine ⟨extractLsb'_eq_of_toNat ?_, extractLsb'_eq_of_toNat ?_, extractLsb'_eq_of_toNat ?_⟩
  all_goals
    rw [pack666_toNat]
    omega

/-- A field of a pixel is that field of the word it is widened to. -/
theorem extractLsb'_setWidth_of_eq {n start len : Nat} {x : BitVec n} {y : BitVec len} (h : start + len ≤ 32)
    (hx : x.extractLsb' start len = y) : (x.setWidth 32).extractLsb' start len = y :=
  (BitVec.extractLsb'_setWidth_of_le h).trans hx

/-- Settles O15: RESULT is the packed pixel, zero-extended. -/
theorem packedFieldsAreTopBits : Obligations.PackedFieldsAreTopBits := by
  intro r g b s t
  constructor
  · intro h
    rw [exec_pack565] at h
    cases h
    obtain ⟨hr, hg, hb⟩ := pack565_fields r g b
    exact ⟨extractLsb'_setWidth_of_eq (by decide) hr, extractLsb'_setWidth_of_eq (by decide) hg,
      extractLsb'_setWidth_of_eq (by decide) hb, extractLsb'_setWidth_eq_zero _ (by decide)⟩
  · intro h
    rw [exec_pack666] at h
    cases h
    obtain ⟨hr, hg, hb⟩ := pack666_fields r g b
    exact ⟨extractLsb'_setWidth_of_eq (by decide) hr, extractLsb'_setWidth_of_eq (by decide) hg,
      extractLsb'_setWidth_of_eq (by decide) hb, extractLsb'_setWidth_eq_zero _ (by decide)⟩

/-- The top six bits of a channel, over two zeros, are the channel with its low bits cleared. -/
theorem topBits_append_zeros (c : Byte) : c.extractLsb' 2 6 ++ 0#2 = c &&& 0xFC := by
  revert c
  decide

/-- Settles O18: the pixel split is the one packed, and its fields are the top bits of the channels. -/
theorem splitOfPackClearsLowBits : Obligations.SplitOfPackClearsLowBits := by
  intro r g b s t h
  rw [exec_pack666] at h
  cases h
  obtain ⟨hr, hg, hb⟩ := pack666_fields r g b
  have hpixel : ((pack666 r g b).setWidth 32).extractLsb' 0 18 = pack666 r g b :=
    extractLsb'_setWidth_of_eq (by decide) BitVec.extractLsb'_eq_self
  refine ⟨_, exec_split666 _ _, ?_⟩
  simp only [retire_result, writeResult_result, hpixel]
  have hred := extractLsb'_split666_red (start := 0) (len := 8) (pack666 r g b) (by decide)
  have hgreen := extractLsb'_split666_green (start := 0) (len := 8) (pack666 r g b) (by decide)
  have hblue := extractLsb'_split666_blue (start := 0) (len := 8) (pack666 r g b) (by decide)
  rw [hred, hgreen, hblue, BitVec.extractLsb'_eq_self, BitVec.extractLsb'_eq_self, BitVec.extractLsb'_eq_self,
    redByte666, greenByte666, blueByte666, hr, hg, hb]
  exact ⟨topBits_append_zeros r, topBits_append_zeros g, topBits_append_zeros b⟩

/-! ### Frame-buffer access, by coordinates and by offset (41_framebuffer.md R130) -/

/-- In a block whose parameters are in range an offset below CAP fits the 16 bits of its field. -/
theorem cap_le_of_wf {p : Params} (h : p.wf = true) : p.cap ≤ 256 * 256 := by
  simp only [Params.wf, Bool.and_eq_true, decide_eq_true_eq] at h
  obtain ⟨⟨⟨⟨-, hw⟩, -⟩, hh⟩, -⟩ := h
  exact Nat.mul_le_mul hw hh

section
variable {s : State} {x y : BitVec 8} (hwf : s.params.wf = true) (hx : x.toNat < s.params.width)
  (hy : y.toNat < s.params.height)
include hwf hx hy

/-- The offset of coordinates in bounds, as FBWR and FBRD take it. -/
theorem toNat_ofNat_coordOffset : (BitVec.ofNat 16 (coordOffset x y s)).toNat = coordOffset x y s := by
  rw [BitVec.toNat_ofNat, Nat.mod_eq_of_lt ((coordOffset_lt hx hy).trans_le (cap_le_of_wf hwf))]

/-- Both forms of an access are in bounds. -/
theorem inBounds_of_coords :
    coordInBounds x y s = true ∧ offsetInBounds (BitVec.ofNat 16 (coordOffset x y s)) s = true :=
  ⟨coordInBounds_true.mpr ⟨hx, hy⟩,
    offsetInBounds_true.mpr ((toNat_ofNat_coordOffset hwf hx hy).trans_lt (coordOffset_lt hx hy))⟩

end

/-- Settles O24: both forms make the same checks and access the same offset. -/
theorem coordinatesAgreeWithOffsets : Obligations.CoordinatesAgreeWithOffsets := by
  intro k x y s hwf hx hy
  obtain ⟨hcoords, hoffset⟩ := inBounds_of_coords hwf hx hy
  have haddr := toNat_ofNat_coordOffset hwf hx hy
  show execFbwrxy k x y s = execFbwr k (BitVec.ofNat 16 (coordOffset x y s)) s ∧
    execFbrdxy k x y s = execFbrd k (BitVec.ofNat 16 (coordOffset x y s)) s
  rw [execFbwrxy, execFbwr, execFbrdxy, execFbrd, hcoords, hoffset, haddr]
  exact ⟨rfl, rfl⟩

/-- Settles O26: `step_pixelAt`. -/
theorem onlyWritesAndResetChangePixels : Obligations.OnlyWritesAndResetChangePixels :=
  fun _ _ _ _ => step_pixelAt

/-- Settles O49: by induction on the number of steps, `step_params` at each. -/
theorem parametersNeverChange : Obligations.ParametersNeverChange := after_params

/-! ### What the HOST's step runs (10_state.md R24) -/

/-- A pending command whose evaluation retires it is what the next step runs, unless that is a reset. -/
theorem step_of_retires {s t : State} {w : Word} (hm : s.nextMove ≠ .reset) (hp : s.pending = some w)
    (heval : evalWord w s = .next t) (hret : t.pending = none) : step s = .next t := by
  have hq : ¬ s.Quiet := by
    intro hq
    obtain ⟨hk, hsub, hd⟩ := held_of_quiet hq hp
    rw [evalWord_command s hd, exec_held hk hsub] at heval
    cases heval
    rw [hp] at hret
    cases hret
  exact (step_pending hm hp hq).trans heval

/-- Settles O7: the HOST's move with PENDING empty, the same while a WAIT holds, and a pending command that does not
hold. -/
theorem hostStepRunsCommand : Obligations.HostStepRunsCommand := by
  refine ⟨fun s w ready hm => ⟨fun i hp hd => ?command, fun hp hd => ?illegal, fun hp hq => ?held⟩,
    fun s t w => step_of_retires⟩
  case command => exact (step_host hm hp).trans (evalWord_command _ hd)
  case illegal => exact (step_host hm hp).symm ▸ rejected_evalWord (issued w ready s.advance) hd
  case held =>
    obtain ⟨v, hv⟩ := Option.ne_none_iff_exists'.mp hp
    exact step_host_held hm hq hv

/-- Settles O8: the word is scheduled first, with PENDING empty, so the next step issues and evaluates it. -/
theorem fetchedWordRunsNext : Obligations.FetchedWordRunsNext := by
  intro s w i hd
  have hword : BitVec.ofNat 32 (w.toNat % 2 ^ 32) = w := by
    rw [Nat.mod_eq_of_lt w.isLt, BitVec.ofNat_toNat, BitVec.setWidth_eq]
  rw [State.withFetchWord, hword]
  exact step_scheduled_command rfl rfl hd

/-! ### The transport's events (42_transfer.md R158 to R162) -/

/-- Settles O31: DONE writes ENG_STATE only, and XERR its cause too. -/
theorem doneAndXerrEvents : Obligations.DoneAndXerrEvents := by
  intro s hsub
  constructor
  · intro hx
    have hdone : doneEvent s = { s with engState := .completing } := if_pos ⟨hsub, hx⟩
    exact ⟨_, congrArg Host.Outcome.next hdone, rfl, rfl, rfl, rfl, fun _ => rfl, ⟨rfl, rfl⟩, rfl, rfl, fun _ _ => rfl,
      rfl, ⟨rfl, rfl, rfl, rfl⟩⟩
  · have hxerr : xerrEvent s = enterFault .transfer s := if_pos hsub
    exact ⟨_, congrArg Host.Outcome.next hxerr, rfl, rfl, rfl, rfl, fun _ => rfl, ⟨rfl, rfl⟩, rfl, rfl, fun _ _ => rfl,
      rfl, ⟨rfl, rfl, rfl, rfl⟩⟩

/-- Settles O32: each event's guard fails. -/
theorem disabledEventsChangeNothing : Obligations.DisabledEventsChangeNothing := by
  intro s
  refine ⟨fun h => ?emit, fun h => ?done, fun h => congrArg _ (if_neg h)⟩
  case emit =>
    have hdisabled : ¬ (s.engState = .submitted ∧ s.xferPtr < s.params.cap) := by
      rw [not_and_or, not_lt]; exact h
    exact (emitEvent_eq s).trans (if_neg hdisabled)
  case done => exact congrArg _ (if_neg (not_and_or.mpr h))

end Sys2Proof.Machine
